-- ==== Sys2Proof/Word.lean ====
section
/-! DEFINITION. The word types of DUML-PFV. Nothing here is signed (spec R8). -/

namespace Sys2Proof

/-- A byte, an unsigned integer in 0..255 (R8). -/
abbrev Byte := BitVec 8

/-- A command word of the `cmd` port (R45). -/
abbrev CommandWord := BitVec 10

/-- The payload read index of the `pl_idx` port (R7 `PLIDX_W`, R70). -/
abbrev PayloadIndex := BitVec 9

/-- An index of the frame buffer, 0..510 (R30): an address outside the buffer cannot be written down. -/
abbrev BufferIndex := Fin 511

end Sys2Proof
end

