-- ==== Sys2Proof/Config.lean ====
section
/-! DEFINITION. The constants of the decode layer (R5) and of the shell (R7), and the two open
parameters `CK8`, `CK16` (R6, R115 to R117). -/

namespace Sys2Proof.Config

/-- `MAGIC`, the required value of `raw[0]` (R5). -/
abbrev magic : Byte := 0x55

/-- `LEN_MIN`, the smallest frame length in bytes (R5). -/
abbrev lenMin : Nat := 13

/-- `LEN_MAX`, the largest frame length in bytes (R5). -/
abbrev lenMax : Nat := 511

/-- `VERSION_REQ`, the required header version (R5). -/
abbrev versionReq : BitVec 6 := 1

/-- `PAY_OFF`, the offset of the first payload byte (R5). -/
abbrev payOff : Nat := 11

/-- `BUF_BYTES`, the size of the frame buffer, equal to `LEN_MAX` (R7). -/
abbrev bufBytes : Nat := 511

/-- `CNT_SAT`, where the byte counter saturates; it means "512 or more" (R7, R12). -/
abbrev cntSat : Nat := 512

end Sys2Proof.Config

namespace Sys2Proof

/-- The pair of checksum functions a decode uses. The decode function takes it as an argument (R6, R122):
a claim about the decode logic quantifies over it, a concrete claim names an instantiation. -/
structure ChecksumEngine where
  /-- `checksum8`, a total function of content and order only (R115). -/
  ck8 : List Byte → BitVec 8
  /-- `checksum16`, a total function of content and order only (R116). -/
  ck16 : List Byte → BitVec 16

namespace Config

/-- The open parameter `CK8` of the machine (R6, R115, U1). It has no body: no value of it, and no relation
between two values, can be proved (R117). DESIGN CHOICE, safe: notes/assumptions/2.md. -/
opaque ck8 : List Byte → BitVec 8

/-- The open parameter `CK16` of the machine (R6, R116, U1), without a body as `ck8`.
DESIGN CHOICE, safe: notes/assumptions/2.md. -/
opaque ck16 : List Byte → BitVec 16

/-! ### Free values

What a function of the decode layer, applied by name to bytes, makes of operands for which the spec states no value.
None of these has a body, so nothing can be proved of a value of one. Each depends on the operand bytes only, as the
functions do. DESIGN CHOICE, safe: notes/assumptions/17.md. -/

/-- `raw[i]` at an index where `raw` has no byte: negative, or not below its length (R36, U3: "any value"). -/
opaque missingByte : List Byte → Int → Byte

/-- `XPLEN` where `n - 13` is negative or needs more than its 9 bits (R106, R109). -/
opaque unstatedPayloadLength : List Byte → BitVec 9

/-- What `CHK4` raises on fewer than 13 bytes, if it raises: computed and stored checksum. "A model must not give those
discarded evaluations a value" (R88). -/
opaque unstatedChk4 : List Byte → Option (BitVec 16 × BitVec 16)

/-- What `CHK5` raises on fewer than 13 bytes, if it raises: the version (R88). -/
opaque unstatedChk5 : List Byte → Option (BitVec 6)

/-- What `CHK6` raises on fewer than 13 bytes, if it raises: the declared length; the other value is `n` (R86, R88). -/
opaque unstatedChk6 : List Byte → Option (BitVec 10)

/-- What `CHK7` raises on fewer than 13 bytes, if it raises: computed and stored checksum (R88). -/
opaque unstatedChk7 : List Byte → Option (BitVec 8 × BitVec 8)

/-- The machine's checksum engine, fixed for the life of the model (R147, R154). -/
def engine : ChecksumEngine := { ck8 := ck8, ck16 := ck16 }

end Config

end Sys2Proof
end

