-- ==== Sys2Proof/Syntax.lean ====
section
/-! DEFINITION. The instructions: one constructor per row of spec/opcode_table.json, and the inputs in which they
reach the block. -/

namespace Sys2Proof

/-- The operations of DUML-PFV. The four command words, the reset pin, the payload read port, the assembler's
pseudo-instruction, the protocol error, the frame format `DF` (that is, the function `Decode` it is parsed by),
and the named pure functions `Decode` is made of. A function of the decode layer carries the byte sequence it is
applied to (R72, R95: each "takes bytes"). -/
inductive Instr where
  /-- `NOP`, R66; its `data` bits are ignored (R47). -/
  | nop
  /-- `PUSH b`, R67. -/
  | push (b : Byte)
  /-- `END`, R68; its `data` bits are ignored (R47). -/
  | endFrame
  /-- `ACK`, R69; its `data` bits are ignored (R47). -/
  | ack
  /-- `RST`, the input pin `rst = 1`, R65. -/
  | rst
  /-- `RDPL i`, the combinational payload read port, R70. -/
  | rdpl (i : PayloadIndex)
  /-- `FRAME`, the assembler's pseudo-instruction, with the bytes its hex string spells, R60. -/
  | frame (bytes : List Byte)
  /-- `PROTOCOL_ERROR`, R71. -/
  | protocolError
  /-- `DF`, a frame handed to the function `Decode`, R72. -/
  | df (raw : List Byte)
  /-- `CHK1`, magic byte, R81. -/
  | chk1 (raw : List Byte)
  /-- `CHK2`, too short, R82. -/
  | chk2 (raw : List Byte)
  /-- `CHK3`, too long, R83. -/
  | chk3 (raw : List Byte)
  /-- `CHK4`, trailer checksum, R84. -/
  | chk4 (raw : List Byte)
  /-- `CHK5`, version, R85. -/
  | chk5 (raw : List Byte)
  /-- `CHK6`, declared length, R86. -/
  | chk6 (raw : List Byte)
  /-- `CHK7`, header checksum, R87. -/
  | chk7 (raw : List Byte)
  /-- `XLEN`, R95. -/
  | xlen (raw : List Byte)
  /-- `XVER`, R96. -/
  | xver (raw : List Byte)
  /-- `XHCK`, R97. -/
  | xhck (raw : List Byte)
  /-- `XSKIND`, R98. -/
  | xskind (raw : List Byte)
  /-- `XSID`, R99. -/
  | xsid (raw : List Byte)
  /-- `XTKIND`, R100. -/
  | xtkind (raw : List Byte)
  /-- `XTID`, R101. -/
  | xtid (raw : List Byte)
  /-- `XSEQ`, R102. -/
  | xseq (raw : List Byte)
  /-- `XCTYPE`, R103. -/
  | xctype (raw : List Byte)
  /-- `XCSET`, R104. -/
  | xcset (raw : List Byte)
  /-- `XCID`, R105. -/
  | xcid (raw : List Byte)
  /-- `XPAY` (and `XPLEN`), R106. -/
  | xpay (raw : List Byte)
  /-- `XTRL`, R107. -/
  | xtrl (raw : List Byte)
  /-- `CK8`, R115. -/
  | ck8 (bytes : List Byte)
  /-- `CK16`, R116. -/
  | ck16 (bytes : List Byte)
  deriving DecidableEq, Repr

/-- The names of the decode layer's functions. The spec gives them no bit pattern ("not selected by a bit
pattern"), so the name is what selects one. DESIGN CHOICE, safe: notes/assumptions/9.md. -/
inductive DecodeOp where
  | chk1 | chk2 | chk3 | chk4 | chk5 | chk6 | chk7
  | xlen | xver | xhck | xskind | xsid | xtkind | xtid | xseq | xctype | xcset | xcid | xpay | xtrl
  | ck8 | ck16
  deriving DecidableEq, Repr

/-- What can be presented to the model at one step. DESIGN CHOICE: notes/assumptions/1.md. -/
inductive Input where
  /-- One rising edge of `clk` with the pins `rst` and `cmd` as sampled (R74). -/
  | clock (rst : Bool) (cmd : CommandWord)
  /-- The host drives `pl_idx` and looks at `pl_data`, `pl_ok` (R70). -/
  | readPort (i : PayloadIndex)
  /-- A line `FRAME "<text>"` of the command assembly (R60). -/
  | assembly (text : List Char)
  /-- A byte sequence in the frame format DF, handed to `Decode` (R1, R72). -/
  | frame (raw : List Byte)
  /-- One function of the decode layer, by name, applied to bytes. -/
  | call (op : DecodeOp) (raw : List Byte)
  /-- `ProtocolError()` by itself (R71). -/
  | protocolErrorEvent
  deriving DecidableEq, Repr

end Sys2Proof
end

