-- ==== Sys2Proof/Decode.lean ====
section
/-! DEFINITION. The decoder: from what is presented at the block's pins (or to its assembler, or to its decode
layer) to an instruction, total, refusing by name; and after it the encoder. The decode of a DUML frame into fields
is not here: it is what the instruction `DF` and the command `END` do (Sys2Proof/Machine/Decoder.lean). -/

namespace Sys2Proof

/-- Why the decoder refuses an input. Safe: no instruction is executed. -/
inductive Reject where
  /-- The assembler refuses the hex string of a `FRAME` line (R60, R133): an odd number of digits, or a character
  that is neither a hex digit nor the space 0x20. -/
  | malformedHexInput
  deriving DecidableEq, Repr

/-! ### The command word (format CW, R45 to R47) -/

/-- `op`, bits 9..8 of a command word (R45). -/
def opField (w : CommandWord) : BitVec 2 := w.extractLsb' 8 2

/-- `data`, bits 7..0 of a command word (R45). -/
def dataField (w : CommandWord) : Byte := w.extractLsb' 0 8

/-- The operation of a command word (R46). Total: all four values of `op` are defined (R47). -/
def decodeCommand (w : CommandWord) : Instr :=
  if opField w = 0b00 then .nop
  else if opField w = 0b01 then .push (dataField w)
  else if opField w = 0b10 then .endFrame
  else .ack

/-- A row of the command table of R46. -/
structure CommandRow where
  /-- The mnemonic. -/
  mnemonic : String
  /-- The bits that are compared. -/
  mask : CommandWord
  /-- Their value, R46's `match`. -/
  pattern : CommandWord
  deriving DecidableEq, Repr

/-- The command table of R46. -/
def commandTable : List CommandRow :=
  [⟨"NOP", 0x300, 0x000⟩, ⟨"PUSH", 0x300, 0x100⟩, ⟨"END", 0x300, 0x200⟩, ⟨"ACK", 0x300, 0x300⟩]

/-- "A command word `w` is the operation of the row for which `(w & mask) == match`" (R46). -/
def CommandRow.covers (r : CommandRow) (w : CommandWord) : Bool := w &&& r.mask == r.pattern

/-! ### The assembler's hex string (R60) -/

/-- The value of a hex digit; `0-9`, `a-f`, `A-F` only (R60). -/
def hexValue (c : Char) : Option Nat :=
  let k := c.toNat
  if 48 ≤ k ∧ k ≤ 57 then some (k - 48)
  else if 97 ≤ k ∧ k ≤ 102 then some (k - 87)
  else if 65 ≤ k ∧ k ≤ 70 then some (k - 55)
  else none

/-- The bytes a list of hex digits spells, two digits per byte, first byte first (R60). -/
def hexPairs : List Char → Option (List Byte)
  | [] => some []
  | [_] => none
  | hi :: lo :: rest =>
    match hexValue hi, hexValue lo, hexPairs rest with
    | some h, some l, some bs => some (BitVec.ofNat 8 (16 * h + l) :: bs)
    | _, _, _ => none

/-- "The assembler strips the space character (0x20) only" (R60, 90_conflicts.md C8). -/
def stripSpaces (text : List Char) : List Char := text.filter (fun c => c.toNat ≠ 0x20)

/-- The operand of a `FRAME` line, or the refusal `MalformedHexInput` (R60). -/
def parseHex (text : List Char) : Except Reject (List Byte) :=
  match hexPairs (stripSpaces text) with
  | some bs => .ok bs
  | none => .error .malformedHexInput

/-! ### The decoder -/

/-- The instruction that applies the named function of the decode layer to bytes. -/
def decodeCall (op : DecodeOp) (raw : List Byte) : Instr :=
  match op with
  | .chk1 => .chk1 raw
  | .chk2 => .chk2 raw
  | .chk3 => .chk3 raw
  | .chk4 => .chk4 raw
  | .chk5 => .chk5 raw
  | .chk6 => .chk6 raw
  | .chk7 => .chk7 raw
  | .xlen => .xlen raw
  | .xver => .xver raw
  | .xhck => .xhck raw
  | .xskind => .xskind raw
  | .xsid => .xsid raw
  | .xtkind => .xtkind raw
  | .xtid => .xtid raw
  | .xseq => .xseq raw
  | .xctype => .xctype raw
  | .xcset => .xcset raw
  | .xcid => .xcid raw
  | .xpay => .xpay raw
  | .xtrl => .xtrl raw
  | .ck8 => .ck8 raw
  | .ck16 => .ck16 raw

/-- What an input asks the block to do. `rst = 1` overrides `cmd`, which is then not looked at (R74). -/
def decodeInput (x : Input) : Except Reject Instr :=
  match x with
  | .clock true _ => .ok .rst
  | .clock false cmd => .ok (decodeCommand cmd)
  | .readPort i => .ok (.rdpl i)
  | .assembly text =>
    match parseHex text with
    | .ok bs => .ok (.frame bs)
    | .error r => .error r
  | .frame raw => .ok (.df raw)
  | .call op raw => .ok (decodeCall op raw)
  | .protocolErrorEvent => .ok .protocolError

/-! ### The encoder -/

/-- A command word from its two fields (R45). -/
def commandWord (op : BitVec 2) (data : Byte) : CommandWord := op ++ data

/-- The hex digit of a value below 16, in the source's capitals. -/
def hexDigit (n : Nat) : Char := Char.ofNat (if n < 10 then 48 + n else 55 + n)

/-- The two hex digits of a byte, the more significant first (R8: "two digits per byte"). -/
def hexOfByte (b : Byte) : List Char := [hexDigit (b.toNat / 16), hexDigit (b.toNat % 16)]

/-- The canonical input of an instruction (R46, R47: `data = 0` where it is ignored; R60). -/
def encode (i : Instr) : Input :=
  match i with
  | .nop => .clock false (commandWord 0b00 0)
  | .push b => .clock false (commandWord 0b01 b)
  | .endFrame => .clock false (commandWord 0b10 0)
  | .ack => .clock false (commandWord 0b11 0)
  | .rst => .clock true 0
  | .rdpl i => .readPort i
  | .frame bytes => .assembly (bytes.flatMap hexOfByte)
  | .protocolError => .protocolErrorEvent
  | .df raw => .frame raw
  | .chk1 raw => .call .chk1 raw
  | .chk2 raw => .call .chk2 raw
  | .chk3 raw => .call .chk3 raw
  | .chk4 raw => .call .chk4 raw
  | .chk5 raw => .call .chk5 raw
  | .chk6 raw => .call .chk6 raw
  | .chk7 raw => .call .chk7 raw
  | .xlen raw => .call .xlen raw
  | .xver raw => .call .xver raw
  | .xhck raw => .call .xhck raw
  | .xskind raw => .call .xskind raw
  | .xsid raw => .call .xsid raw
  | .xtkind raw => .call .xtkind raw
  | .xtid raw => .call .xtid raw
  | .xseq raw => .call .xseq raw
  | .xctype raw => .call .xctype raw
  | .xcset raw => .call .xcset raw
  | .xcid raw => .call .xcid raw
  | .xpay raw => .call .xpay raw
  | .xtrl raw => .call .xtrl raw
  | .ck8 bytes => .call .ck8 bytes
  | .ck16 bytes => .call .ck16 bytes

/-! ### Words numbered as the opcode table numbers them -/

/-- The low `k` bytes of `w`, the least significant first. -/
def bytesOfNat : Nat → Nat → List Byte
  | 0, _ => []
  | k + 1, w => BitVec.ofNat 8 w :: bytesOfNat k (w / 256)

/-- How long a frame with these first bytes is taken to be when the table gives it no more: what its `length`
field declares if that is a legal length, else the least legal length. DESIGN CHOICE, safe: notes/assumptions/12.md. -/
def tableFrameLength (bs : List Byte) : Nat :=
  let declared :=
    match bs with
    | _ :: b1 :: b2 :: _ => b1.toNat + 256 * (b2.toNat % 4)
    | _ => 0
  if Config.lenMin ≤ declared ∧ declared ≤ Config.lenMax then declared else Config.lenMin

/-- The input that carries an instruction of the opcode table given as a number: up to 16 bits it is a command
word on `cmd` (the port has 10 bits, so a larger number is none); beyond, it is the first bytes of a frame in the
format DF, the rest of the frame being zeros. notes/assumptions/12.md. -/
def tableInput (nbits w : Nat) : Option Input :=
  if nbits ≤ 16 then
    if w < 1024 then some (.clock false (BitVec.ofNat 10 w)) else none
  else
    let bs := bytesOfNat ((nbits + 7) / 8) w
    some (.frame (bs ++ List.replicate (tableFrameLength bs - bs.length) 0))

/-- The instruction the decoder reads from an instruction given as a number, bit 0 the least significant. -/
def decodeTableWord (nbits w : Nat) : Option Instr :=
  match tableInput nbits w with
  | none => none
  | some x =>
    match decodeInput x with
    | .ok i => some i
    | .error _ => none

end Sys2Proof
end

