-- ==== Sys2Proof/Machine/State.lean ====
section
/-! DEFINITION. The state of DUML-PFV as plain data (10_state.md), the outcomes of the function `Decode`, and the
reasons a step can stop. -/

namespace Sys2Proof.Machine

/-- `st`, the control state (R11): `recv` is 0, `done` is 1. -/
inductive ControlState where
  | recv
  | done
  deriving DecidableEq, Repr

/-- The seven failure kinds of `Decode` with the values they carry (R125). The eighth name of the source's taxonomy,
`MalformedHexInput`, is not raised by the block (R133). -/
inductive DecodeError where
  /-- Code 1, R126. -/
  | invalidMagic
  /-- Code 2, R127. -/
  | packetTooShort
  /-- Code 3, R128. -/
  | packetTooLong
  /-- Code 4, R129: computed and stored checksum. -/
  | trailerChecksumMismatch (expected actual : BitVec 16)
  /-- Code 5, R130: the version found. -/
  | unsupportedVersion (version : BitVec 6)
  /-- Code 6, R131: the header's length field and the number of bytes. -/
  | lengthMismatch (declared : BitVec 10) (actual : Nat)
  /-- Code 7, R132: computed and stored checksum. -/
  | headerChecksumMismatch (expected actual : BitVec 8)
  deriving DecidableEq, Repr

/-- The success record of `Decode` (R108), the trailer beside it. -/
structure DecodedPacket where
  length : BitVec 10
  version : BitVec 6
  headerChecksum : BitVec 8
  sourceKind : BitVec 3
  sourceId : BitVec 4
  targetKind : BitVec 3
  targetId : BitVec 4
  sequenceNumber : BitVec 16
  commandType : BitVec 8
  commandSet : BitVec 8
  commandId : BitVec 8
  payload : List Byte
  trailer : BitVec 16
  deriving DecidableEq, Repr

/-- The outcome of `Decode`: success or exactly one failure (R2, R125). -/
inductive DecodeOutcome where
  | ok (packet : DecodedPacket)
  | fail (error : DecodeError)
  deriving DecidableEq, Repr

/-- What the last operation that answers a value answered. The MODEL's own field, not the spec's: `exec` returns a
state only, and the payload read port (R70), the checks (R81 to R87), the extractions (R95 to R107), the checksum
functions (R115, R116) and `Decode` (R72) answer values and write no register.
DESIGN CHOICE, safe: notes/assumptions/6.md. -/
inductive Answer where
  /-- Nothing was answered yet. -/
  | nothing
  /-- A check passed. -/
  | passed
  /-- A check raised a failure. -/
  | raised (error : DecodeError)
  /-- An extraction or a checksum function answered an unsigned integer of the stated width in bits. -/
  | number (width value : Nat)
  /-- `XPAY` and `XPLEN` (R106). -/
  | payload (bytes : List Byte) (plen : BitVec 9)
  /-- `Decode` (R72). -/
  | outcome (o : DecodeOutcome)
  /-- `pl_data` and `pl_ok` (R70). -/
  | port (data : Byte) (ok : Bool)
  deriving DecidableEq, Repr

/-- The result registers (R14 to R20). They are written together, by `END`, `ACK` and `RST` only. -/
structure Results where
  /-- R14. -/
  status : BitVec 3
  /-- R15. -/
  infoA : BitVec 16
  /-- R15. -/
  infoB : BitVec 16
  /-- R16. -/
  fLength : BitVec 10
  /-- R16. -/
  fVersion : BitVec 6
  /-- R16. -/
  fHck : BitVec 8
  /-- R17. -/
  fSkind : BitVec 3
  /-- R17. -/
  fSid : BitVec 4
  /-- R17. -/
  fTkind : BitVec 3
  /-- R17. -/
  fTid : BitVec 4
  /-- R17. -/
  fSeq : BitVec 16
  /-- R18. -/
  fCtype : BitVec 8
  /-- R18. -/
  fCset : BitVec 8
  /-- R18. -/
  fCid : BitVec 8
  /-- R19. -/
  fPlen : BitVec 9
  /-- R20. -/
  fTrailer : BitVec 16
  deriving DecidableEq, Repr

/-- Every result register zero, as `RST` and `ACK` leave them (R65, R69). -/
def Results.cleared : Results :=
  { status := 0, infoA := 0, infoB := 0, fLength := 0, fVersion := 0, fHck := 0, fSkind := 0, fSid := 0,
    fTkind := 0, fTid := 0, fSeq := 0, fCtype := 0, fCset := 0, fCid := 0, fPlen := 0, fTrailer := 0 }

/-- Why the machine stops with a fault. The block itself never does (R141, R156). -/
inductive Fault where
  /-- `END` or `RDPL` needed a buffer byte that no `PUSH` has written since the last `RST` or `ACK`. The spec asks
  for it: such a read "must be impossible by construction or a fault in the model, never a zero" (R36, U3). Safe;
  met only in states that no run from reset reaches (notes/assumptions/4.md). -/
  | unwrittenBufferRead
  deriving DecidableEq, Repr

/-- Why a step is refused. -/
inductive Refusal where
  /-- An instruction without a meaning. Raised by no arm of this model. Safe. -/
  | notModelled (mnemonic : String)
  /-- Raised by `step`: the host's input sequence is used up, "the run is over" (R155). Safe
  (notes/assumptions/1.md). -/
  | noInput
  /-- Raised by `step` where the assembler refuses the hex string of a `FRAME` line; "no command reaches the
  block" (R60, R133). Safe (notes/assumptions/8.md). -/
  | malformedHexInput
  deriving DecidableEq, Repr

/-- The state of the block (10_state.md section 2), and two fields of the model's own. Plain data. -/
structure State where
  /-- `st` (R11). -/
  st : ControlState
  /-- `cnt`, the byte counter (R12), 10 bits. -/
  cnt : BitVec 10
  /-- `buf`, the frame buffer (R13): the bytes some `PUSH` has stored, by index, in one canonical form
  (`Memory.wf`). An unlisted index has no value. -/
  mem : List Host.Cell
  /-- The result registers (R14 to R20). -/
  res : Results
  /-- `perr`, the sticky protocol-error flag (R21). -/
  perr : Bool
  /-- The model's own: what the last value-answering operation answered (notes/assumptions/6.md). -/
  answer : Answer
  /-- The model's own: what the host will present, the next first (R23; notes/assumptions/1.md). -/
  inputs : List Input
  deriving DecidableEq, Repr

/-- The state right after `RST` (R145), which is the machine's initial state (R146). The buffer has no reset value
(R13) and nothing of it is listed; `answer` and `inputs` are the model's own (notes/assumptions/1.md, 3.md, 6.md). -/
def State.reset : State :=
  { st := .recv, cnt := 0, mem := [], res := Results.cleared, perr := false, answer := .nothing, inputs := [] }

end Sys2Proof.Machine
end

