-- ==== Sys2Proof/Machine/Flags.lean ====
section
/-! DEFINITION. The outcome codes and the diagnostic values a failure records (R14, R15, R125), and the one flag of the
block, `perr` (R21). There are no condition codes. -/

namespace Sys2Proof.Machine

/-- The outcome code of a failure: the number of the source's step that fails (R14, R125). -/
def DecodeError.code (e : DecodeError) : BitVec 3 :=
  match e with
  | .invalidMagic => 1
  | .packetTooShort => 2
  | .packetTooLong => 3
  | .trailerChecksumMismatch _ _ => 4
  | .unsupportedVersion _ => 5
  | .lengthMismatch _ _ => 6
  | .headerChecksumMismatch _ _ => 7

/-- `info_a` of a failure, zero-extended to 16 bits (R15). -/
def DecodeError.infoA (e : DecodeError) : BitVec 16 :=
  match e with
  | .invalidMagic | .packetTooShort | .packetTooLong => 0
  | .trailerChecksumMismatch expected _ => expected
  | .unsupportedVersion version => version.setWidth 16
  | .lengthMismatch declared _ => declared.setWidth 16
  | .headerChecksumMismatch expected _ => expected.setWidth 16

/-- `info_b` of a failure, zero-extended to 16 bits (R15). -/
def DecodeError.infoB (e : DecodeError) : BitVec 16 :=
  match e with
  | .invalidMagic | .packetTooShort | .packetTooLong => 0
  | .trailerChecksumMismatch _ actual => actual
  | .unsupportedVersion _ => 0
  | .lengthMismatch _ actual => BitVec.ofNat 16 actual
  | .headerChecksumMismatch _ actual => actual.setWidth 16

/-- `perr` after a protocol error: set, whatever it was (R21, R71). -/
def perrAfterProtocolError (_perr : Bool) : Bool := true

end Sys2Proof.Machine
end

