-- ==== Sys2Proof/Machine/Operands.lean ====
section
/-! DEFINITION. The operand forms: how a field is assembled from the bytes it lies in (R52 to R58, R109). All of it is
unsigned and zero-extended; no bit is lost. And where the bytes come from: a frame, inside which every index lies by
construction, or any byte sequence, whose missing bytes are free values. -/

namespace Sys2Proof.Machine

/-- Two bytes, low byte first: `lo | (hi << 8)`, 16 bits (R32, R55, R58). -/
def le16 (lo hi : Byte) : BitVec 16 := lo.setWidth 16 ||| (hi.setWidth 16 <<< 8)

/-- `raw[1] | ((raw[2] & 0x03) << 8)`, 10 bits (R52, R95). -/
def lengthField (b1 b2 : Byte) : BitVec 10 := b1.setWidth 10 ||| ((b2 &&& 0x03).setWidth 10 <<< 8)

/-- `raw[2] >> 2`, 6 bits (R52, R96). -/
def versionField (b : Byte) : BitVec 6 := (b >>> 2).setWidth 6

/-- `b >> 5`, 3 bits: the kind in bits 7..5 of byte 4 or 5 (R54). -/
def kindField (b : Byte) : BitVec 3 := (b >>> 5).setWidth 3

/-- `b & 0x0E`, 4 bits, masked and not shifted: the id in bits 3..1 of byte 4 or 5 (R54, 90_conflicts.md C5). -/
def idField (b : Byte) : BitVec 4 := (b &&& 0x0E).setWidth 4

/-- `raw[8] & 0xE0`, 8 bits, masked and not shifted (R56, 92_eei_decisions.md D18). -/
def commandTypeField (b : Byte) : BitVec 8 := b &&& 0xE0

/-- The header's first four bytes as a little-endian 32-bit word `H` (R59). -/
def headerWord (b0 b1 b2 b3 : Byte) : BitVec 32 :=
  b0.setWidth 32 ||| (b1.setWidth 32 <<< 8) ||| (b2.setWidth 32 <<< 16) ||| (b3.setWidth 32 <<< 24)

/-- The recogniser of the fixed bits of a valid header: `(H & 0x00FE00FF) == 0x00040055`, necessary for validity and
not sufficient (R59, the row `DF` of the opcode table). -/
def headerRecognised (raw : List Byte) : Bool :=
  match raw with
  | b0 :: b1 :: b2 :: b3 :: _ => headerWord b0 b1 b2 b3 &&& 0x00FE00FF == 0x00040055
  | _ => false

/-- A byte sequence of at least 13 bytes. It carries the bound that `CHK2` establishes, so that every index the later steps
use is inside it by construction (R88). `Decode` makes one only after `CHK3` passed too. -/
structure Frame where
  /-- The bytes. -/
  raw : List Byte
  /-- What passing `CHK2` establishes (R82). -/
  long : Config.lenMin ≤ raw.length

/-- The frame made of a byte sequence, where it is long enough. -/
def frameOf (raw : List Byte) : Option Frame :=
  if h : Config.lenMin ≤ raw.length then some ⟨raw, h⟩ else none

/-- `n`, the number of bytes of a frame. -/
def Frame.size (f : Frame) : Nat := f.raw.length

/-- `raw[i]` for the fixed offsets 0..10, the only ones an extraction uses (R88). -/
def Frame.byte (f : Frame) (i : Fin 11) : Byte :=
  f.raw[i.val]'(by have h : 13 ≤ f.raw.length := f.long; have := i.isLt; omega)

/-- `raw[n-2]`, the low byte of the trailer (R58). -/
def Frame.trailerLow (f : Frame) : Byte :=
  f.raw[f.raw.length - 2]'(by have h : 13 ≤ f.raw.length := f.long; omega)

/-- `raw[n-1]`, the high byte of the trailer (R58). -/
def Frame.trailerHigh (f : Frame) : Byte :=
  f.raw[f.raw.length - 1]'(by have h : 13 ≤ f.raw.length := f.long; omega)

/-- `raw[0 .. n-2)`, every byte before the trailer (R58, R84). -/
def Frame.body (f : Frame) : List Byte := f.raw.take (f.raw.length - 2)

/-- `raw[0 .. 3)`, the bytes the header checksum covers (R53, R87). -/
def Frame.headerBytes (f : Frame) : List Byte := f.raw.take 3

/-- `raw[i]` of any byte sequence: the byte where there is one, a free value where there is none
(notes/assumptions/17.md). -/
def rawByte (raw : List Byte) (i : Int) : Byte :=
  match i with
  | .ofNat k =>
    match raw[k]? with
    | some b => b
    | none => Config.missingByte raw i
  | .negSucc _ => Config.missingByte raw i

/-- The fixed offsets 0..10 of any byte sequence. -/
def fixedByte (raw : List Byte) (i : Fin 11) : Byte := rawByte raw i.val

end Sys2Proof.Machine
end

