-- ==== Sys2Proof/Machine/Ops.lean ====
section
/-! DEFINITION. The operations every meaning is built of: reading and writing the frame buffer, the protocol error,
recording an outcome (the block's only exception entry, R135) and the return from it (R137). -/

namespace Sys2Proof.Machine

/-! ### The frame buffer -/

/-- The canonical form of the buffer's cells: indices strictly rising (so none twice), all inside 0..510. No cell
equals what an unlisted index reads as, since that is no value. -/
abbrev Memory.wf (m : List Host.Cell) : Prop :=
  m.Pairwise (fun c d => c.1 < d.1) ∧ ∀ c ∈ m, c.1 < Config.bufBytes

/-- The byte stored at an index, none where none was ever stored. THE one definition of what an unlisted index
reads as: no value (R13, R36, U3; notes/assumptions/4.md). -/
def Memory.lookup (m : List Host.Cell) (addr : Nat) : Option Byte :=
  match m with
  | [] => none
  | (a, v) :: rest => if a = addr then some v else Memory.lookup rest addr

/-- The cells after storing one byte, in canonical form. -/
def Memory.store (m : List Host.Cell) (addr : Nat) (v : Byte) : List Host.Cell :=
  match m with
  | [] => [(addr, v)]
  | (a, w) :: rest =>
    if addr < a then (addr, v) :: (a, w) :: rest
    else if addr = a then (addr, v) :: rest
    else (a, w) :: Memory.store rest addr v

/-- How many bytes of the buffer have been written since the last `RST` or `ACK`: `min(cnt, 511)` (R35, R36). -/
def State.written (s : State) : Nat := min s.cnt.toNat Config.bufBytes

/-- `MemRead(addr, 1)`: defined inside the written range only (R35). A byte left over from an earlier frame is
listed but "counts as unwritten" (R36). -/
def memRead (s : State) (addr : Nat) : Option Byte :=
  if addr < s.written then Memory.lookup s.mem addr else none

/-- `MemRead(addr, 2)`, little-endian, two reads within one step (R34, R35). -/
def memRead2 (s : State) (addr : Nat) : Option (BitVec 16) :=
  match memRead s addr, memRead s (addr + 1) with
  | some lo, some hi => some (le16 lo hi)
  | _, _ => none

/-- `MemWrite(addr, 1, v)` (R35). An index outside the buffer cannot be given. -/
def memWrite (addr : BufferIndex) (v : Byte) (s : State) : State :=
  { s with mem := Memory.store s.mem addr.val v }

/-- The `k` bytes from `addr` on, where every one of them can be read. -/
def memReadBytes (s : State) (addr : Nat) (k : Nat) : Option (List Byte) :=
  match k with
  | 0 => some []
  | k + 1 =>
    match memRead s addr, memReadBytes s (addr + 1) k with
    | some b, some bs => some (b :: bs)
    | _, _ => none

/-- `buf[0 .. min(n, 511))`, the stored bytes of the frame being received or just decoded (R68, R36, R73). -/
def bufferedBytes (s : State) : Option (List Byte) := memReadBytes s 0 s.written

/-! ### The result registers -/

/-- The result registers of an outcome (R15, R108, R125, R135): on success the fields, code 0 and no diagnostic
values; on a failure its code, its diagnostic values, and every `f_*` zero. -/
def DecodeOutcome.results (o : DecodeOutcome) : Results :=
  match o with
  | .ok p =>
    { status := 0, infoA := 0, infoB := 0
      fLength := p.length, fVersion := p.version, fHck := p.headerChecksum
      fSkind := p.sourceKind, fSid := p.sourceId, fTkind := p.targetKind, fTid := p.targetId
      fSeq := p.sequenceNumber, fCtype := p.commandType, fCset := p.commandSet, fCid := p.commandId
      fPlen := BitVec.ofNat 9 p.payload.length, fTrailer := p.trailer }
  | .fail e => { Results.cleared with status := e.code, infoA := e.infoA, infoB := e.infoB }

/-! ### Exceptions: the protocol error, entry and return -/

/-- `ProtocolError()`: `perr <- 1` and nothing else (R71, R140). -/
def raiseProtocolError (s : State) : State := { s with perr := perrAfterProtocolError s.perr }

/-- Entry (R135): the `END` step records the outcome in the result registers and goes to DONE. It writes neither
`cnt` nor `buf` nor `perr`; "nothing else is saved, because nothing else exists". -/
def recordOutcome (o : DecodeOutcome) (s : State) : State := { s with st := .done, res := o.results }

/-- Return (R69, R137): the result registers and `cnt` are cleared and the block goes to RECV. It writes neither
`buf` nor `perr`, and "restores nothing, because entry saved nothing". -/
def releaseResult (s : State) : State := { s with st := .recv, cnt := 0, res := Results.cleared }

/-- The reset operation (R65): every register cleared; `buf` is not written. -/
def resetRegisters (s : State) : State := { s with st := .recv, cnt := 0, res := Results.cleared, perr := false }

/-- What an operation that answers a value does to the state: nothing but the answer. -/
def answerWith (a : Answer) (s : State) : State := { s with answer := a }

end Sys2Proof.Machine
end

