-- ==== Sys2Proof/Machine/Checks.lean ====
section
/-! DEFINITION. The validation checks `CHK1` to `CHK7` (41_validation_checks.md) as pure tests that answer the failure
they raise, if any, and the meanings of the instructions that apply one of them to bytes. -/

namespace Sys2Proof.Machine

/-! ### The tests -/

/-- `CHK1`: `n == 0 or raw[0] != 0x55` (R81). -/
def magicFailure (raw : List Byte) : Option DecodeError :=
  match raw with
  | [] => some .invalidMagic
  | b :: _ => if b ≠ Config.magic then some .invalidMagic else none

/-- `CHK2`: `n < 13` (R82). -/
def tooShortFailure (n : Nat) : Option DecodeError :=
  if n < Config.lenMin then some .packetTooShort else none

/-- `CHK3`: `n > 511` (R83). -/
def tooLongFailure (n : Nat) : Option DecodeError :=
  if Config.lenMax < n then some .packetTooLong else none

/-- `CHK4`: the stored trailer against `CK16` of every byte before it; `expected` is the computed value (R84, D9). -/
def trailerFailure (E : ChecksumEngine) (f : Frame) : Option DecodeError :=
  let stored := le16 f.trailerLow f.trailerHigh
  let computed := E.ck16 f.body
  if stored ≠ computed then some (.trailerChecksumMismatch computed stored) else none

/-- `CHK5`: `raw[2] >> 2 != 1` (R85). -/
def versionFailure (f : Frame) : Option DecodeError :=
  let version := versionField (f.byte 2)
  if version ≠ Config.versionReq then some (.unsupportedVersion version) else none

/-- `CHK6`: the whole 10-bit `length` field against the number of bytes (R86). -/
def lengthFailure (f : Frame) : Option DecodeError :=
  let declared := lengthField (f.byte 1) (f.byte 2)
  if declared.toNat ≠ f.size then some (.lengthMismatch declared f.size) else none

/-- `CHK7`: `raw[3]` against `CK8` of bytes 0, 1, 2 (R87). -/
def headerFailure (E : ChecksumEngine) (f : Frame) : Option DecodeError :=
  let computed := E.ck8 f.headerBytes
  if computed ≠ f.byte 3 then some (.headerChecksumMismatch computed (f.byte 3)) else none

/-- The answer of a check. -/
def checkAnswer (e : Option DecodeError) : Answer :=
  match e with
  | none => .passed
  | some e => .raised e

/-- Applies one of the checks 4 to 7 to any bytes: what it tests where every byte it reads exists, that is from 13 bytes on
(above 511, where `Decode` does not run it, DESIGN CHOICE: notes/assumptions/9.md); below, the given free value, for R88
gives those evaluations no value (notes/assumptions/17.md). -/
def checkAnyBytes (raw : List Byte) (check : Frame → Option DecodeError) (unstated : Option DecodeError) :
    Option DecodeError :=
  match frameOf raw with
  | some f => check f
  | none => unstated

/-! ### The meanings -/

/-- `CHK1` (R81): any byte sequence, the empty one included. -/
def execChk1 (raw : List Byte) (s : State) : Host.Outcome State Fault Refusal :=
  .next (answerWith (checkAnswer (magicFailure raw)) s)

/-- `CHK2` (R82): reads `n` only. -/
def execChk2 (raw : List Byte) (s : State) : Host.Outcome State Fault Refusal :=
  .next (answerWith (checkAnswer (tooShortFailure raw.length)) s)

/-- `CHK3` (R83): reads `n` only. -/
def execChk3 (raw : List Byte) (s : State) : Host.Outcome State Fault Refusal :=
  .next (answerWith (checkAnswer (tooLongFailure raw.length)) s)

/-- `CHK4` (R84). -/
def execChk4 (raw : List Byte) (s : State) : Host.Outcome State Fault Refusal :=
  .next (answerWith (checkAnswer (checkAnyBytes raw (trailerFailure Config.engine)
    ((Config.unstatedChk4 raw).map (fun v => .trailerChecksumMismatch v.1 v.2)))) s)

/-- `CHK5` (R85). -/
def execChk5 (raw : List Byte) (s : State) : Host.Outcome State Fault Refusal :=
  .next (answerWith (checkAnswer (checkAnyBytes raw versionFailure
    ((Config.unstatedChk5 raw).map .unsupportedVersion))) s)

/-- `CHK6` (R86). -/
def execChk6 (raw : List Byte) (s : State) : Host.Outcome State Fault Refusal :=
  .next (answerWith (checkAnswer (checkAnyBytes raw lengthFailure
    ((Config.unstatedChk6 raw).map (fun declared => .lengthMismatch declared raw.length)))) s)

/-- `CHK7` (R87). -/
def execChk7 (raw : List Byte) (s : State) : Host.Outcome State Fault Refusal :=
  .next (answerWith (checkAnswer (checkAnyBytes raw (headerFailure Config.engine)
    ((Config.unstatedChk7 raw).map (fun v => .headerChecksumMismatch v.1 v.2)))) s)

end Sys2Proof.Machine
end

