-- ==== Sys2Proof/Machine/Extract.lean ====
section
/-! DEFINITION. The field extractions (42_field_extraction.md): small, named, pure functions of the bytes they read, each of
a stated width, and the meanings of the instructions that apply one of them to bytes. An extraction at fixed offsets takes
the bytes at offsets 0..10 as a function `b`: a frame's (`Frame.byte`) within `Decode`, any sequence's (`fixedByte`) when
applied by name. Outside 13 to 511 bytes, where `Decode` extracts nothing, that an extraction applied by name answers its
rule's formula wherever the bytes it reads exist is a DESIGN CHOICE: notes/assumptions/9.md. -/

namespace Sys2Proof.Machine

/-! ### The extractions -/

/-- `XLEN`, 10 bits (R95). -/
def extractLength (b : Fin 11 → Byte) : BitVec 10 := lengthField (b 1) (b 2)

/-- `XVER`, 6 bits (R96). -/
def extractVersion (b : Fin 11 → Byte) : BitVec 6 := versionField (b 2)

/-- `XHCK`, 8 bits (R97). -/
def extractHeaderChecksum (b : Fin 11 → Byte) : BitVec 8 := b 3

/-- `XSKIND`, 3 bits (R98). -/
def extractSourceKind (b : Fin 11 → Byte) : BitVec 3 := kindField (b 4)

/-- `XSID`, 4 bits, bit 0 always 0 (R99). -/
def extractSourceId (b : Fin 11 → Byte) : BitVec 4 := idField (b 4)

/-- `XTKIND`, 3 bits (R100, D10). -/
def extractTargetKind (b : Fin 11 → Byte) : BitVec 3 := kindField (b 5)

/-- `XTID`, 4 bits, bit 0 always 0 (R101, D10). -/
def extractTargetId (b : Fin 11 → Byte) : BitVec 4 := idField (b 5)

/-- `XSEQ`, 16 bits (R102). -/
def extractSequence (b : Fin 11 → Byte) : BitVec 16 := le16 (b 6) (b 7)

/-- `XCTYPE`, 8 bits, bits 4..0 always 0 (R103). -/
def extractCommandType (b : Fin 11 → Byte) : BitVec 8 := commandTypeField (b 8)

/-- `XCSET`, 8 bits (R104). -/
def extractCommandSet (b : Fin 11 → Byte) : BitVec 8 := b 9

/-- `XCID`, 8 bits (R105). -/
def extractCommandId (b : Fin 11 → Byte) : BitVec 8 := b 10

/-- `XPAY`: `raw[11 .. n-2)`, empty when `n = 13` (R106), and for fewer bytes too, there being no index from 11 to `n - 3`
(R8: "empty when `a >= b`"; DESIGN CHOICE to apply it there: notes/assumptions/9.md). -/
def extractPayload (raw : List Byte) : List Byte := (raw.take (raw.length - 2)).drop Config.payOff

/-- `XPLEN`: `n - 13`, 9 bits (R106; for 512 to 524 bytes DESIGN CHOICE: notes/assumptions/9.md); where that is negative or
needs more bits, a free value (notes/assumptions/17.md). -/
def extractPayloadLength (raw : List Byte) : BitVec 9 :=
  if 13 ≤ raw.length ∧ raw.length - 13 < 512 then BitVec.ofNat 9 (raw.length - 13)
  else Config.unstatedPayloadLength raw

/-- `XTRL`, 16 bits, of the last two bytes, low byte first (R107). -/
def extractTrailer (low high : Byte) : BitVec 16 := le16 low high

/-- The success record (R108). -/
def extractPacket (f : Frame) : DecodedPacket :=
  { length := extractLength f.byte
    version := extractVersion f.byte
    headerChecksum := extractHeaderChecksum f.byte
    sourceKind := extractSourceKind f.byte
    sourceId := extractSourceId f.byte
    targetKind := extractTargetKind f.byte
    targetId := extractTargetId f.byte
    sequenceNumber := extractSequence f.byte
    commandType := extractCommandType f.byte
    commandSet := extractCommandSet f.byte
    commandId := extractCommandId f.byte
    payload := extractPayload f.raw
    trailer := extractTrailer f.trailerLow f.trailerHigh }

/-- An extracted bit vector as an answer: its width and its value. -/
def numberAnswer (w : Nat) (v : BitVec w) : Answer := .number w v.toNat

/-! ### The meanings -/

/-- `XLEN` (R95). -/
def execXlen (raw : List Byte) (s : State) : Host.Outcome State Fault Refusal :=
  .next (answerWith (numberAnswer 10 (extractLength (fixedByte raw))) s)

/-- `XVER` (R96). -/
def execXver (raw : List Byte) (s : State) : Host.Outcome State Fault Refusal :=
  .next (answerWith (numberAnswer 6 (extractVersion (fixedByte raw))) s)

/-- `XHCK` (R97). -/
def execXhck (raw : List Byte) (s : State) : Host.Outcome State Fault Refusal :=
  .next (answerWith (numberAnswer 8 (extractHeaderChecksum (fixedByte raw))) s)

/-- `XSKIND` (R98). -/
def execXskind (raw : List Byte) (s : State) : Host.Outcome State Fault Refusal :=
  .next (answerWith (numberAnswer 3 (extractSourceKind (fixedByte raw))) s)

/-- `XSID` (R99). -/
def execXsid (raw : List Byte) (s : State) : Host.Outcome State Fault Refusal :=
  .next (answerWith (numberAnswer 4 (extractSourceId (fixedByte raw))) s)

/-- `XTKIND` (R100). -/
def execXtkind (raw : List Byte) (s : State) : Host.Outcome State Fault Refusal :=
  .next (answerWith (numberAnswer 3 (extractTargetKind (fixedByte raw))) s)

/-- `XTID` (R101). -/
def execXtid (raw : List Byte) (s : State) : Host.Outcome State Fault Refusal :=
  .next (answerWith (numberAnswer 4 (extractTargetId (fixedByte raw))) s)

/-- `XSEQ` (R102). -/
def execXseq (raw : List Byte) (s : State) : Host.Outcome State Fault Refusal :=
  .next (answerWith (numberAnswer 16 (extractSequence (fixedByte raw))) s)

/-- `XCTYPE` (R103). -/
def execXctype (raw : List Byte) (s : State) : Host.Outcome State Fault Refusal :=
  .next (answerWith (numberAnswer 8 (extractCommandType (fixedByte raw))) s)

/-- `XCSET` (R104). -/
def execXcset (raw : List Byte) (s : State) : Host.Outcome State Fault Refusal :=
  .next (answerWith (numberAnswer 8 (extractCommandSet (fixedByte raw))) s)

/-- `XCID` (R105). -/
def execXcid (raw : List Byte) (s : State) : Host.Outcome State Fault Refusal :=
  .next (answerWith (numberAnswer 8 (extractCommandId (fixedByte raw))) s)

/-- `XPAY` with `XPLEN` (R106). -/
def execXpay (raw : List Byte) (s : State) : Host.Outcome State Fault Refusal :=
  .next (answerWith (.payload (extractPayload raw) (extractPayloadLength raw)) s)

/-- `XTRL` (R107). -/
def execXtrl (raw : List Byte) (s : State) : Host.Outcome State Fault Refusal :=
  .next (answerWith
    (numberAnswer 16 (extractTrailer (rawByte raw (raw.length - 2)) (rawByte raw (raw.length - 1)))) s)

end Sys2Proof.Machine
end

