-- ==== Sys2Proof/Machine/Checksum.lean ====
section
/-! DEFINITION. The checksum functions (43_checksum_contract.md): the meanings of `CK8` and `CK16`, which are open
parameters, and the candidate instantiation of R119 and R120, which is NOT the machine's. -/

namespace Sys2Proof.Machine

/-- `CK8` applied to a byte sequence (R115), the machine's open parameter. -/
def execCk8 (bytes : List Byte) (s : State) : Host.Outcome State Fault Refusal :=
  .next (answerWith (numberAnswer 8 (Config.engine.ck8 bytes)) s)

/-- `CK16` applied to a byte sequence (R116), the machine's open parameter. -/
def execCk16 (bytes : List Byte) (s : State) : Host.Outcome State Fault Refusal :=
  .next (answerWith (numberAnswer 16 (Config.engine.ck16 bytes)) s)

/-! ### The candidate instantiation

PRESUMED: from general knowledge, not in the source (R119, R120, GK1, GK2). A named instantiation for concrete claims
only; no meaning uses it. notes/assumptions/7.md. -/

/-- One bit of a reflected CRC: shift right, and add the polynomial where a one fell out (R119, R120). -/
def crcBit (w : Nat) (poly crc : BitVec w) : BitVec w :=
  if crc &&& 1 = 1 then (crc >>> 1) ^^^ poly else crc >>> 1

/-- `k` bits of a reflected CRC. -/
def crcBits (w : Nat) (poly : BitVec w) (k : Nat) (crc : BitVec w) : BitVec w :=
  match k with
  | 0 => crc
  | k + 1 => crcBits w poly k (crcBit w poly crc)

/-- A reflected CRC of a byte sequence from an initial value: each byte enters the low 8 bits, then eight bit
steps; no final XOR (R119, R120). -/
def crcOf (w : Nat) (poly : BitVec w) (crc : BitVec w) (bytes : List Byte) : BitVec w :=
  match bytes with
  | [] => crc
  | b :: rest => crcOf w poly (crcBits w poly 8 (crc ^^^ b.setWidth w)) rest

/-- `CK8c` (R119): polynomial 0x8C in reflected form, initial value 0x77. -/
def candidateCk8 (bytes : List Byte) : BitVec 8 := crcOf 8 0x8C 0x77 bytes

/-- `CK16c` (R120): polynomial 0x8408 in reflected form, initial value 0x3692. -/
def candidateCk16 (bytes : List Byte) : BitVec 16 := crcOf 16 0x8408 0x3692 bytes

/-- The candidate pair. -/
def candidateEngine : ChecksumEngine := { ck8 := candidateCk8, ck16 := candidateCk16 }

end Sys2Proof.Machine
end

