-- ==== Sys2Proof/Machine/Decoder.lean ====
section
/-! DEFINITION. The function `Decode` (R72), for any checksum engine, and the meaning of `DF`, a frame handed to it. -/

namespace Sys2Proof.Machine

/-- The first of `CHK4` to `CHK7` that fails, in the order of R80: a priority among pure tests. -/
def laterFailure (E : ChecksumEngine) (f : Frame) : Option DecodeError :=
  match trailerFailure E f with
  | some e => some e
  | none =>
    match versionFailure f with
    | some e => some e
    | none =>
      match lengthFailure f with
      | some e => some e
      | none => headerFailure E f

/-- Steps 4 to 11 of `Decode`, on a frame of legal length (R72). -/
def decodeFrame (E : ChecksumEngine) (f : Frame) : DecodeOutcome :=
  match laterFailure E f with
  | some e => .fail e
  | none => .ok (extractPacket f)

/-- What passing `CHK2` establishes (R82). -/
theorem lenMin_le_of_tooShortFailure {n : Nat} (h : tooShortFailure n = none) : Config.lenMin ≤ n := by
  unfold tooShortFailure at h
  split at h
  · cases h
  · omega

/-- `Decode(raw)` (R72): total over all byte sequences (R2), the first failing check reported (R80). -/
def decode (E : ChecksumEngine) (raw : List Byte) : DecodeOutcome :=
  match magicFailure raw with
  | some e => .fail e
  | none =>
    match hshort : tooShortFailure raw.length with
    | some e => .fail e
    | none =>
      match tooLongFailure raw.length with
      | some e => .fail e
      | none => decodeFrame E ⟨raw, lenMin_le_of_tooShortFailure hshort⟩

/-- `Decode'(n, buf)` (R72, R73): `Decode` of the stored bytes when `n <= 511`; beyond, where the true frame is longer
than the stored bytes, `InvalidMagic` if `buf[0] != 0x55` and `PacketTooLong` otherwise. The spec says the latter of
`n = 512`, the only larger value `cnt` takes (for others: DESIGN CHOICE, notes/assumptions/16.md). -/
def decodeBuffered (E : ChecksumEngine) (n : Nat) (stored : List Byte) : DecodeOutcome :=
  if n ≤ Config.lenMax then decode E stored
  else
    match magicFailure stored with
    | some e => .fail e
    | none => .fail .packetTooLong

/-- `DF`: `Decode` applied to a byte sequence; the block's registers are untouched (R1, R2, R72;
notes/assumptions/12.md). -/
def execDf (raw : List Byte) (s : State) : Host.Outcome State Fault Refusal :=
  .next (answerWith (.outcome (decode Config.engine raw)) s)

end Sys2Proof.Machine
end

