-- ==== Sys2Proof/Machine/Ports.lean ====
section
/-! DEFINITION. The output ports (R22): functions of the state, reading one changes nothing. -/

namespace Sys2Proof.Machine

/-- `st` as the bit its port drives: RECV is 0, DONE is 1 (R11). -/
def ControlState.bit (c : ControlState) : BitVec 1 :=
  match c with
  | .recv => 0
  | .done => 1

/-- `done`, the block's only event line: it equals `st` (R22, R138). -/
def doneLine (s : State) : BitVec 1 := s.st.bit

/-- `perr` as the bit its port drives (R21, R22). -/
def perrLine (s : State) : BitVec 1 := BitVec.ofBool s.perr

/-- The payload read port (R70): `(pl_data, pl_ok)` for an index, a function of the state. None only where the buffer
lacks a byte that the registers say it holds, which no run reaches. -/
def readPort (s : State) (i : PayloadIndex) : Option (Byte × Bool) :=
  if s.st = .done ∧ s.res.status = 0 ∧ i.toNat < s.res.fPlen.toNat then
    match memRead s (Config.payOff + i.toNat) with
    | some b => some (b, true)
    | none => none
  else some (0, false)

/-- Everything a host can see: every register but `buf` on its port, `done`, and the payload read port at every
index (R22, R155). Two states that show the same are told apart by no host at this moment. -/
def SameOutputs (s t : State) : Prop :=
  s.st = t.st ∧ s.cnt = t.cnt ∧ s.res = t.res ∧ s.perr = t.perr ∧ doneLine s = doneLine t ∧
    ∀ i : PayloadIndex, readPort s i = readPort t i

end Sys2Proof.Machine
end

