-- ==== Sys2Proof/Machine/Commands.lean ====
section
/-! DEFINITION. The shell's operations (40_port_commands.md): `RST`, `NOP`, `PUSH`, `END`, `ACK`, `RDPL`, `FRAME`,
`PROTOCOL_ERROR`. -/

namespace Sys2Proof.Machine

/-! ### The operations -/

/-- `PUSH b` as a function of the state (R67, R71, R73): in RECV the byte is stored at index `cnt` while there is room;
the counter saturates at 512; in DONE it is a protocol error. Above 512, which no run reaches, nothing changes either
(DESIGN CHOICE, notes/assumptions/16.md). -/
def pushByte (b : Byte) (s : State) : State :=
  match s.st with
  | .done => raiseProtocolError s
  | .recv =>
    if h : s.cnt.toNat < Config.bufBytes then
      { memWrite ⟨s.cnt.toNat, h⟩ b s with cnt := s.cnt + 1 }
    else if s.cnt.toNat = Config.lenMax then { s with cnt := 512 }
    else s

/-- `END` for any checksum engine (R68, R71, R73): in RECV the stored bytes are decoded and the outcome recorded, all in
one step; in DONE it is a protocol error. -/
def closeFrame (E : ChecksumEngine) (s : State) : Host.Outcome State Fault Refusal :=
  match s.st with
  | .done => .next (raiseProtocolError s)
  | .recv =>
    match bufferedBytes s with
    | some stored => .next (recordOutcome (decodeBuffered E s.cnt.toNat stored) s)
    | none => .fault .unwrittenBufferRead

/-- The `PUSH` commands of a byte sequence of any length, one after another (R73). -/
def pushBytes (bytes : List Byte) (s : State) : State :=
  match bytes with
  | [] => s
  | b :: rest => pushBytes rest (pushByte b s)

/-- `ACK` as a function of the state (R69, R71). -/
def acknowledge (s : State) : State :=
  match s.st with
  | .done => releaseResult s
  | .recv => raiseProtocolError s

/-! ### The meanings -/

/-- `RST` (R65). -/
def execRst (s : State) : Host.Outcome State Fault Refusal := .next (resetRegisters s)

/-- `NOP` (R66): nothing is written, in either control state. -/
def execNop (s : State) : Host.Outcome State Fault Refusal := .next s

/-- `PUSH b` (R67). -/
def execPush (b : Byte) (s : State) : Host.Outcome State Fault Refusal := .next (pushByte b s)

/-- `END` (R68), with the machine's checksum engine. -/
def execEnd (s : State) : Host.Outcome State Fault Refusal := closeFrame Config.engine s

/-- `ACK` (R69). -/
def execAck (s : State) : Host.Outcome State Fault Refusal := .next (acknowledge s)

/-- `RDPL i` (R70): the port's answer; no register is written. -/
def execRdpl (i : PayloadIndex) (s : State) : Host.Outcome State Fault Refusal :=
  match readPort s i with
  | some (data, ok) => .next (answerWith (.port data ok) s)
  | none => .fault .unwrittenBufferRead

/-- `FRAME` (R60, R73): the `PUSH` commands of the bytes, in order, then `END`. One step of the model stands for all of
them (notes/assumptions/11.md). -/
def execFrame (bytes : List Byte) (s : State) : Host.Outcome State Fault Refusal :=
  closeFrame Config.engine (pushBytes bytes s)

/-- `PROTOCOL_ERROR` (R71). -/
def execProtocolError (s : State) : Host.Outcome State Fault Refusal := .next (raiseProtocolError s)

end Sys2Proof.Machine
end

