-- ==== Sys2Proof/Machine/Dispatch.lean ====
section
/-! DEFINITION. One arm per constructor of Instr, each one direct call of the instruction's meaning. -/

namespace Sys2Proof.Machine

/-- The meaning of an instruction in a state (R74). -/
def exec (i : Instr) (s : State) : Host.Outcome State Fault Refusal :=
  match i with
  | .nop => Sys2Proof.Machine.execNop s
  | .push b => Sys2Proof.Machine.execPush b s
  | .endFrame => Sys2Proof.Machine.execEnd s
  | .ack => Sys2Proof.Machine.execAck s
  | .rst => Sys2Proof.Machine.execRst s
  | .rdpl k => Sys2Proof.Machine.execRdpl k s
  | .frame bytes => Sys2Proof.Machine.execFrame bytes s
  | .protocolError => Sys2Proof.Machine.execProtocolError s
  | .df raw => Sys2Proof.Machine.execDf raw s
  | .chk1 raw => Sys2Proof.Machine.execChk1 raw s
  | .chk2 raw => Sys2Proof.Machine.execChk2 raw s
  | .chk3 raw => Sys2Proof.Machine.execChk3 raw s
  | .chk4 raw => Sys2Proof.Machine.execChk4 raw s
  | .chk5 raw => Sys2Proof.Machine.execChk5 raw s
  | .chk6 raw => Sys2Proof.Machine.execChk6 raw s
  | .chk7 raw => Sys2Proof.Machine.execChk7 raw s
  | .xlen raw => Sys2Proof.Machine.execXlen raw s
  | .xver raw => Sys2Proof.Machine.execXver raw s
  | .xhck raw => Sys2Proof.Machine.execXhck raw s
  | .xskind raw => Sys2Proof.Machine.execXskind raw s
  | .xsid raw => Sys2Proof.Machine.execXsid raw s
  | .xtkind raw => Sys2Proof.Machine.execXtkind raw s
  | .xtid raw => Sys2Proof.Machine.execXtid raw s
  | .xseq raw => Sys2Proof.Machine.execXseq raw s
  | .xctype raw => Sys2Proof.Machine.execXctype raw s
  | .xcset raw => Sys2Proof.Machine.execXcset raw s
  | .xcid raw => Sys2Proof.Machine.execXcid raw s
  | .xpay raw => Sys2Proof.Machine.execXpay raw s
  | .xtrl raw => Sys2Proof.Machine.execXtrl raw s
  | .ck8 bytes => Sys2Proof.Machine.execCk8 bytes s
  | .ck16 bytes => Sys2Proof.Machine.execCk16 bytes s

end Sys2Proof.Machine
end

