-- ==== Sys2Proof/Machine/Step.lean ====
section
/-! DEFINITION. One step: the next input is taken, decoded and executed (R74). -/

namespace Sys2Proof.Machine

/-- The state with its first input taken. -/
def State.withInputs (s : State) (rest : List Input) : State := { s with inputs := rest }

/-- One step (R74): the next input is decoded and its instruction executed. With no input left the run is over
(R155); a `FRAME` line that the assembler refuses reaches the block as no command (R60). -/
def step (s : State) : Host.Outcome State Fault Refusal :=
  match s.inputs with
  | [] => .refused .noInput
  | x :: rest =>
    match decodeInput x with
    | .ok i => exec i (s.withInputs rest)
    | .error .malformedHexInput => .refused .malformedHexInput

/-- `s` with an instruction of the opcode table presented next: the model's stand-in for the host that drives the
pins (R23; notes/assumptions/13.md). A number that is no instruction leaves nothing to present. -/
def State.withFetchWord (s : State) (nbits w : Nat) : State :=
  match tableInput nbits w with
  | some x => s.withInputs (x :: s.inputs)
  | none => s.withInputs []

end Sys2Proof.Machine
end

