-- ==== Sys2Proof/WellFormed.lean ====
section
/-! DEFINITION. Which instructions are well formed. Every command is (R47: "no illegal, reserved or hint
command encoding"); the checks 4 to 7 and the extractions belong to frames of legal length, the only ones `Decode` applies
them to (R88). An ill-formed instruction is not refused: it runs, with a free value where the spec states none
(notes/assumptions/9.md, 17.md). -/

namespace Sys2Proof

/-- The byte sequences that `Decode` applies the checks 4 to 7 and the extractions to: 13 to 511 bytes (R88). -/
abbrev InWindow (raw : List Byte) : Prop := Config.lenMin ≤ raw.length ∧ raw.length ≤ Config.lenMax

/-- Well-formedness of an instruction: the operand check of R88 where there is one. `CHK1`, `CHK2`, `CHK3` and
`Decode` itself take any byte sequence (R2, R81 to R83), as the checksum functions do (R115, R116). -/
def WellFormed (i : Instr) : Prop :=
  match i with
  | .nop | .push _ | .endFrame | .ack | .rst | .rdpl _ | .frame _ | .protocolError => True
  | .df _ | .chk1 _ | .chk2 _ | .chk3 _ | .ck8 _ | .ck16 _ => True
  | .chk4 raw | .chk5 raw | .chk6 raw | .chk7 raw => InWindow raw
  | .xlen raw | .xver raw | .xhck raw => InWindow raw
  | .xskind raw | .xsid raw | .xtkind raw | .xtid raw | .xseq raw => InWindow raw
  | .xctype raw | .xcset raw | .xcid raw => InWindow raw
  | .xpay raw | .xtrl raw => InWindow raw

end Sys2Proof
end

