-- ==== Sys2Proof/Safety.lean ====
section
/-! DEFINITION. What counts as a good state and a safe run of DUML-PFV, in the terms the statements use. -/

namespace Sys2Proof.Machine

/-- Every index of the written range holds a byte (R36, R37): what makes `END` and `RDPL` total. -/
def State.BufferWritten (s : State) : Prop :=
  ∀ a, a < s.written → ∃ b, Memory.lookup s.mem a = some b

/-- The invariant of every state reached from `RST` (R24): the buffer keeps its canonical form and holds the written
range, the counter is at most 512, the result registers are clear in RECV and are, in DONE, the image of `Decode`
of the buffered frame. -/
structure State.Inv (s : State) : Prop where
  /-- The cells' canonical form. -/
  mem_wf : Memory.wf s.mem
  /-- R36, R37. -/
  buffer_written : s.BufferWritten
  /-- R24 item 1. -/
  cnt_le : s.cnt.toNat ≤ Config.cntSat
  /-- R24 item 2. -/
  recv_cleared : s.st = .recv → s.res = Results.cleared
  /-- R24 item 5. -/
  done_image : s.st = .done → ∃ stored, bufferedBytes s = some stored ∧
    s.res = (decodeBuffered Config.engine s.cnt.toNat stored).results

/-- The inputs a host drives at the block's pins (R23): a clock edge, or the payload index. -/
def fromPins (x : Input) : Bool :=
  match x with
  | .clock _ _ | .readPort _ => true
  | .assembly _ | .frame _ | .call _ _ | .protocolErrorEvent => false

/-- Which instructions set `perr` in which control state (R21, R71, R140): `PUSH` and `END` in DONE, `ACK` in RECV;
a `FRAME` in DONE, which ends with such an `END`; and the protocol error itself. -/
def setsPerr (i : Instr) (st : ControlState) : Bool :=
  match i, st with
  | .push _, .done | .endFrame, .done | .frame _, .done | .ack, .recv | .protocolError, _ => true
  | _, _ => false

/-- A safe run answers a next state; "the block does not halt, lock up, reset itself" (R141). -/
def Answers (o : Host.Outcome State Fault Refusal) : Prop := ∃ t, o = .next t

/-- The instructions that can write the result registers (R14 to R20: "written together, by END, by ACK and by
RST"); a `FRAME` ends with an `END`. -/
def writesResults (i : Instr) : Bool :=
  match i with
  | .endFrame | .frame _ | .ack | .rst => true
  | _ => false

/-- The states with `st = RECV` and `cnt = 0`, where a new frame begins (R2, R73). -/
def State.Idle (s : State) : Prop := s.st = .recv ∧ s.cnt = 0

/-- Two states that differ at most in buffer bytes outside the written range, that is, in bytes that "count as
unwritten" (R36). -/
def AgreeButStaleBytes (s t : State) : Prop :=
  s.st = t.st ∧ s.cnt = t.cnt ∧ s.res = t.res ∧ s.perr = t.perr ∧ s.answer = t.answer ∧ s.inputs = t.inputs ∧
    ∀ a, memRead s a = memRead t a

/-- The number `raw[i]` is, for an index inside `raw` (R8). -/
def byteAt (raw : List Byte) (i : Nat) : Nat := (raw.getD i 0).toNat

/-- The number the last two bytes of `raw` spell, low byte first (R58), for two or more bytes. -/
def storedTrailer (raw : List Byte) : Nat := byteAt raw (raw.length - 2) + 256 * byteAt raw (raw.length - 1)

/-- A frame of the recipe of 95_test_vectors.md section 2.1, for any checksum engine: a header of the right length and
version with its checksum, the transit block, command block and payload `B`, and the trailer. -/
def recipeFrame (E : ChecksumEngine) (B : List Byte) : List Byte :=
  let n := B.length + 6
  let b1 : Byte := BitVec.ofNat 8 (n % 256)
  let b2 : Byte := BitVec.ofNat 8 (4 + n / 256)
  let body := [0x55, b1, b2, E.ck8 [0x55, b1, b2]] ++ B
  let c := E.ck16 body
  body ++ [BitVec.ofNat 8 (c.toNat % 256), BitVec.ofNat 8 (c.toNat / 256)]

end Sys2Proof.Machine
end

