-- ==== Sys2Proof/Certificates/Slice0/Obligations.lean ====
section
/-! DEFINITION. The statements about DUML-PFV for the provers. Each docstring says which rule of spec/ it formalises. -/

open Sys2Proof Sys2Proof.Machine

/-! ### Reset and the invariant -/

/-- R145, R65: after `RST`, from any state and whatever `cmd` carries, every register is zero and the block is in RECV,
`done` is low, the payload port is shut at every index, and `buf` is not written; a second `RST` changes nothing. -/
def Obligations.ResetClearsEveryRegisterButBuf : Prop :=
  ∀ (s : State) (cmd : CommandWord), decodeInput (.clock true cmd) = .ok .rst ∧
    ∃ t, exec .rst s = .next t ∧ t.st = .recv ∧ t.cnt = 0 ∧ t.res = Results.cleared ∧ t.perr = false ∧
      doneLine t = 0 ∧ (∀ i, readPort t i = some (0, false)) ∧ t.mem = s.mem ∧ t.answer = s.answer ∧
      t.inputs = s.inputs ∧ exec .rst t = .next t

/-- R145, R146: the machine starts in the state that `RST` leaves. The empty buffer, the empty input list and the empty
answer of that state are the model's own choices (notes/assumptions/1.md, 3.md, 6.md). -/
def Obligations.ResetStateIsWhatRstLeaves : Prop :=
  exec .rst State.reset = .next State.reset ∧ State.reset.Inv

/-- R24: the invariant is kept by every step, from every state that meets it, whatever the input. -/
def Obligations.EveryStepKeepsTheInvariant : Prop :=
  ∀ s t : State, s.Inv → step s = .next t → t.Inv

/-- R24 items 1 to 4 and 6, for every state that meets the invariant; in item 4 with the values the registers hold
after a successful `END` (R16, R19, R20). -/
def Obligations.InvariantGivesTheListedFacts : Prop :=
  ∀ s : State, s.Inv →
    s.cnt.toNat ≤ 512 ∧
    (s.st = .recv → s.res = Results.cleared) ∧
    (s.st = .done → s.res.status ≠ 0 →
      s.res = { Results.cleared with status := s.res.status, infoA := s.res.infoA, infoB := s.res.infoB }) ∧
    (s.st = .done → s.res.status = 0 →
      13 ≤ s.cnt.toNat ∧ s.cnt.toNat ≤ 511 ∧ s.res.fLength = s.cnt ∧ s.res.fVersion = 1 ∧
      s.res.fPlen.toNat = s.cnt.toNat - 13 ∧ s.res.infoA = 0 ∧ s.res.infoB = 0 ∧
      memRead s 0 = some 0x55 ∧ memRead s 3 = some s.res.fHck ∧
      memRead2 s (s.cnt.toNat - 2) = some s.res.fTrailer ∧
      ∃ raw, bufferedBytes s = some raw ∧ s.res.fHck = Config.engine.ck8 (raw.take 3) ∧
        s.res.fTrailer = Config.engine.ck16 (raw.take (s.cnt.toNat - 2))) ∧
    (s.res.fSid.toNat % 2 = 0 ∧ s.res.fTid.toNat % 2 = 0 ∧ s.res.fCtype.toNat % 32 = 0)

/-- R156, R141: from a state that meets the invariant every input a host can drive at the pins is answered with a next
state: nothing blocks, halts or is refused. -/
def Obligations.EveryPinInputIsAnswered : Prop :=
  ∀ (s : State) (x : Input) (rest : List Input), s.Inv → s.inputs = x :: rest → fromPins x = true →
    ∃ t, step s = .next t ∧ t.inputs = rest

/-! ### The port commands -/

/-- R66, R47: `NOP` changes nothing in either control state, whatever its `data` bits. -/
def Obligations.NopChangesNothing : Prop :=
  (∀ s : State, exec .nop s = .next s) ∧ ∀ data : Byte, decodeCommand (commandWord 0b00 data) = .nop

/-- R67: in RECV a byte is stored at index `cnt` while `cnt <= 510` and the counter advances; at 511 the byte is dropped
and the counter becomes 512; at 512 nothing changes; in DONE only `perr` is set. Every other index of the buffer reads
as before, and so does everything else. -/
def Obligations.PushAppendsOneByte : Prop :=
  ∀ (b : Byte) (s : State),
    (s.st = .recv → s.cnt.toNat ≤ 510 →
      ∃ m, exec (.push b) s = .next { s with mem := m, cnt := s.cnt + 1 } ∧
        Memory.lookup m s.cnt.toNat = some b ∧
        (∀ a, a ≠ s.cnt.toNat → Memory.lookup m a = Memory.lookup s.mem a) ∧
        (s.cnt + 1).toNat = s.cnt.toNat + 1 ∧ (Memory.wf s.mem → Memory.wf m)) ∧
    (s.st = .recv → s.cnt.toNat = 511 → exec (.push b) s = .next { s with cnt := 512 }) ∧
    (s.st = .recv → s.cnt.toNat = 512 → exec (.push b) s = .next s) ∧
    (s.st = .done → exec (.push b) s = .next { s with perr := true })

/-- R36, R37: where every index of the written range holds a byte, the bytes `END` decodes are exactly those, in order,
`min(cnt, 511)` of them; each is what `MemRead` reads there, and beyond the written range `MemRead` has no value. -/
def Obligations.BufferedBytesAreTheWrittenOnes : Prop :=
  ∀ s : State, s.BufferWritten →
    ∃ stored, bufferedBytes s = some stored ∧ stored.length = min s.cnt.toNat 511 ∧
      ∀ a, memRead s a = stored[a]?

/-- R68, R135, R125, R15: `END` in RECV records the outcome of `Decode'` in one step, for any checksum engine: on success
code 0, no diagnostic values and the fields; on a failure its code and its diagnostic values and every `f_*` zero. `cnt`,
`buf` and `perr` are not written. In DONE only `perr` is set. The machine's `END` uses the machine's own engine, and there
are bytes to decode wherever the written range holds its bytes. -/
def Obligations.EndRecordsTheOutcome : Prop :=
  ∀ (E : ChecksumEngine) (s : State),
    exec .endFrame s = closeFrame Config.engine s ∧
    (s.st = .done → closeFrame E s = .next { s with perr := true }) ∧
    (s.BufferWritten → ∃ stored, bufferedBytes s = some stored) ∧
    ∀ stored, s.st = .recv → bufferedBytes s = some stored →
      closeFrame E s = .next { s with
        st := .done
        res :=
          match decodeBuffered E s.cnt.toNat stored with
          | .ok p =>
            ⟨0, 0, 0, p.length, p.version, p.headerChecksum, p.sourceKind, p.sourceId, p.targetKind, p.targetId,
              p.sequenceNumber, p.commandType, p.commandSet, p.commandId, BitVec.ofNat 9 p.payload.length, p.trailer⟩
          | .fail .invalidMagic => { Results.cleared with status := 1 }
          | .fail .packetTooShort => { Results.cleared with status := 2 }
          | .fail .packetTooLong => { Results.cleared with status := 3 }
          | .fail (.trailerChecksumMismatch e a) => { Results.cleared with status := 4, infoA := e, infoB := a }
          | .fail (.unsupportedVersion v) => { Results.cleared with status := 5, infoA := v.setWidth 16 }
          | .fail (.lengthMismatch d n) =>
            { Results.cleared with status := 6, infoA := d.setWidth 16, infoB := BitVec.ofNat 16 n }
          | .fail (.headerChecksumMismatch e a) =>
            { Results.cleared with status := 7, infoA := e.setWidth 16, infoB := a.setWidth 16 } }

/-- R156, R68: `END` in RECV is total: wherever the written range holds its bytes it goes to DONE with the image of
`Decode'` of those bytes, and changes nothing else. -/
def Obligations.EndCompletes : Prop :=
  ∀ s : State, s.st = .recv → s.BufferWritten →
    ∃ stored, bufferedBytes s = some stored ∧
      exec .endFrame s = .next { s with
        st := .done, res := (decodeBuffered Config.engine s.cnt.toNat stored).results }

/-- R69: `ACK` in DONE clears the result registers and `cnt` and goes to RECV, writing neither `buf` nor `perr`, and the
payload port is shut at every index; in RECV it only sets `perr`, and keeps `cnt` and the bytes pushed so far. -/
def Obligations.AckReleasesTheResult : Prop :=
  ∀ s : State,
    (s.st = .done → exec .ack s = .next { s with st := .recv, cnt := 0, res := Results.cleared } ∧
      ∀ i, readPort { s with st := .recv, cnt := 0, res := Results.cleared } i = some (0, false)) ∧
    (s.st = .recv → exec .ack s = .next { s with perr := true })

/-- R70: the payload port shows `MemRead(11 + i, 1)` with `pl_ok = 1` in DONE with `status = 0` and `i < f_plen`, and
`(0, 0)` otherwise; reading changes no register (the answer is recorded in the model's own field `answer`,
notes/assumptions/6.md and 11.md). Where the first case holds under the invariant, the byte is there and the index is at
most `cnt - 3` and at most 508. -/
def Obligations.PayloadPortReadsInPlace : Prop :=
  ∀ (s : State) (i : PayloadIndex),
    (¬ (s.st = .done ∧ s.res.status = 0 ∧ i.toNat < s.res.fPlen.toNat) →
      exec (.rdpl i) s = .next { s with answer := .port 0 false }) ∧
    (s.Inv → s.st = .done → s.res.status = 0 → i.toNat < s.res.fPlen.toNat →
      11 + i.toNat ≤ s.cnt.toNat - 3 ∧ 11 + i.toNat ≤ 508 ∧
      ∃ b, memRead s (11 + i.toNat) = some b ∧ exec (.rdpl i) s = .next { s with answer := .port b true })

/-- R71, R140: `PUSH` and `END` in DONE, `ACK` in RECV, and `ProtocolError()` itself set `perr` and write nothing else; once
set it stays set whatever is executed, but for `RST`. -/
def Obligations.ProtocolErrorWritesOnlyPerr : Prop :=
  ∀ s : State,
    exec .protocolError s = .next { s with perr := true } ∧
    (s.st = .done → (∀ b, exec (.push b) s = .next { s with perr := true }) ∧
      exec .endFrame s = .next { s with perr := true }) ∧
    (s.st = .recv → exec .ack s = .next { s with perr := true }) ∧
    (∀ (i : Instr) (t : State), s.perr = true → i ≠ .rst → exec i s = .next t → t.perr = true)

/-! ### Whole-machine rules of the shell -/

/-- R21, R140, R24 item 7: what every instruction does to `perr`: `RST` clears it, the misuses set it, nothing else
touches it. -/
def Obligations.PerrIsStickyUntilReset : Prop :=
  ∀ (i : Instr) (s t : State), exec i s = .next t →
    (i = .rst → t.perr = false) ∧ (i ≠ .rst → t.perr = (s.perr || setsPerr i s.st))

/-- R11: only `END` in RECV (also as the last command of a `FRAME`) enters DONE, and only `ACK` and `RST` leave it. -/
def Obligations.ControlStateChangesOnlyByEndAckRst : Prop :=
  ∀ (i : Instr) (s t : State), exec i s = .next t → s.st ≠ t.st →
    (s.st = .recv ∧ t.st = .done ∧ (i = .endFrame ∨ ∃ bytes, i = .frame bytes)) ∨
    (s.st = .done ∧ t.st = .recv ∧ (i = .ack ∨ i = .rst))

/-- R12, R26: what moves the byte counter. In RECV a `PUSH` (also within a `FRAME`), which takes it to `min(cnt + 1, 512)`
while it is at most 512; in DONE `ACK`; and `RST`; no other instruction writes it. -/
def Obligations.CounterFrame : Prop :=
  ∀ (i : Instr) (s t : State), exec i s = .next t →
    (∀ b, i = .push b → s.st = .recv → s.cnt.toNat ≤ 512 → t.cnt.toNat = min (s.cnt.toNat + 1) 512) ∧
    (t.cnt ≠ s.cnt →
      (s.st = .recv ∧ ((∃ b, i = .push b) ∨ ∃ bytes, i = .frame bytes)) ∨
      (t.cnt = 0 ∧ ((s.st = .done ∧ i = .ack) ∨ i = .rst)))

/-- R14 to R20: no instruction but `END`, `ACK` and `RST` (and a `FRAME`, which ends with an `END`) writes a result
register. -/
def Obligations.ResultsWrittenOnlyByEndAckRst : Prop :=
  ∀ (i : Instr) (s t : State), exec i s = .next t → writesResults i = false → t.res = s.res

/-- R13, R39: the buffer's frame. In DONE no instruction writes it. In RECV a `PUSH` writes at most index `cnt`, a `FRAME`
of `k` bytes at most the indices from `cnt` to `cnt + k - 1` and none beyond 510, and no other instruction writes it. -/
def Obligations.BufferFrame : Prop :=
  ∀ (i : Instr) (s t : State), exec i s = .next t →
    (s.st = .done → t.mem = s.mem) ∧
    (∀ a, Memory.lookup t.mem a ≠ Memory.lookup s.mem a →
      s.cnt.toNat ≤ a ∧ a ≤ 510 ∧
        ((∃ b, i = .push b ∧ a = s.cnt.toNat) ∨ ∃ bytes, i = .frame bytes ∧ a < s.cnt.toNat + bytes.length))

/-- R21 "No rule reads it": `perr` never changes what an instruction does to anything else. -/
def Obligations.NoInstructionReadsPerr : Prop :=
  ∀ (i : Instr) (s t : State) (p : Bool), exec i s = .next t →
    ∃ q, exec i { s with perr := p } = .next { t with perr := q }

/-- The model's own field `answer` (notes/assumptions/6.md) is read by no instruction: it never changes what one does to
the block. -/
def Obligations.NoInstructionReadsTheAnswer : Prop :=
  ∀ (i : Instr) (s t : State) (a : Answer), exec i s = .next t →
    ∃ b, exec i { s with answer := a } = .next { t with answer := b }

/-- R36, R27, R136: bytes left over from an earlier frame show in nothing. Two states that differ in such bytes only
answer every instruction with states that again differ in such bytes only, and show the same outputs. -/
def Obligations.StaleBufferBytesNeverShow : Prop :=
  ∀ (i : Instr) (s t s' : State), AgreeButStaleBytes s t → exec i s = .next s' →
    ∃ t', exec i t = .next t' ∧ AgreeButStaleBytes s' t' ∧ SameOutputs s' t'

/-- R74, R155: a step takes the next input, decodes it and executes its instruction; with no input the run is over; a
refused `FRAME` line reaches the block as no command (the two stops are the model's: notes/assumptions/1.md, 8.md). -/
def Obligations.StepRunsTheDecodedInstruction : Prop :=
  ∀ s : State,
    (∀ x rest i, s.inputs = x :: rest → decodeInput x = .ok i → step s = exec i { s with inputs := rest }) ∧
    (s.inputs = [] → step s = .refused .noInput) ∧
    (∀ x rest, s.inputs = x :: rest → decodeInput x = .error .malformedHexInput →
      step s = .refused .malformedHexInput)

/-- R74: the dispatch table at a clock edge, for every state and every command word, ignored bits included (the pins as
the first element of the model's own list `inputs`, notes/assumptions/1.md). -/
def Obligations.ClockEdgeDispatch : Prop :=
  ∀ (s : State) (cmd : CommandWord) (rest : List Input) (data : Byte),
    (s.inputs = .clock true cmd :: rest → step s = exec .rst { s with inputs := rest }) ∧
    (s.inputs = .clock false (commandWord 0b00 data) :: rest → step s = .next { s with inputs := rest }) ∧
    (s.inputs = .clock false (commandWord 0b01 data) :: rest →
      step s = if s.st = .recv then exec (.push data) { s with inputs := rest }
        else .next { s with inputs := rest, perr := true }) ∧
    (s.inputs = .clock false (commandWord 0b10 data) :: rest →
      step s = if s.st = .recv then exec .endFrame { s with inputs := rest }
        else .next { s with inputs := rest, perr := true }) ∧
    (s.inputs = .clock false (commandWord 0b11 data) :: rest →
      step s = if s.st = .recv then .next { s with inputs := rest, perr := true }
        else .next { s with inputs := rest, st := .recv, cnt := 0, res := Results.cleared })

/-! ### Frames through the shell -/

/-- R2, R73: from an idle block, `FRAME raw` (one step of the model, notes/assumptions/11.md) leaves DONE with the image of `Decode(raw)`, for a byte sequence of any
length; `cnt` is the length saturated at 512, the buffer holds the first 511 bytes, and nothing else changed. -/
def Obligations.FrameShowsTheImageOfDecode : Prop :=
  ∀ (raw : List Byte) (s : State), s.Idle →
    ∃ t, exec (.frame raw) s = .next t ∧ t.st = .done ∧
      t.res = (decode Config.engine raw).results ∧ t.cnt.toNat = min raw.length 512 ∧
      bufferedBytes t = some (raw.take 511) ∧
      (∀ a, min raw.length 511 ≤ a → Memory.lookup t.mem a = Memory.lookup s.mem a) ∧
      t.perr = s.perr ∧ t.answer = s.answer ∧ t.inputs = s.inputs

/-- R60: `FRAME`, one step of the model (notes/assumptions/11.md), is its expansion. Executed in any state, it ends where
the steps of its commands end, `PUSH` of each byte and then `END`, one clock edge each. -/
def Obligations.FrameEqualsItsCommands : Prop :=
  ∀ (raw : List Byte) (s : State),
    exec (.frame raw) s =
      Sys2Proof.core.run (raw.length + 1)
        { s with inputs := raw.map (fun b => .clock false (commandWord 0b01 b)) ++
            .clock false (commandWord 0b10 0) :: s.inputs }

/-- R73: the same for the commands themselves, streamed one per clock edge, with any number of `NOP` words anywhere among
them (`cmds` less its `NOP` words is `PUSH` of each byte and then an `END`, whatever bits the words ignore); the stream
stands in the model's own list `inputs` (notes/assumptions/1.md). -/
def Obligations.StreamedCommandsShowTheImageOfDecode : Prop :=
  ∀ (raw : List Byte) (cmds : List CommandWord) (rest : List Input) (s : State), s.Idle →
    ((cmds.map decodeCommand).filter (fun i => i ≠ .nop) = raw.map .push ++ [.endFrame]) →
    s.inputs = cmds.map (.clock false) ++ rest →
    ∃ t, Sys2Proof.core.run cmds.length s = .next t ∧ t.st = .done ∧
      t.res = (decode Config.engine raw).results ∧ t.cnt.toNat = min raw.length 512 ∧
      bufferedBytes t = some (raw.take 511) ∧ t.perr = s.perr ∧ t.answer = s.answer ∧ t.inputs = rest

/-- R75: "decoding the same byte sequence twice yields identical results": after `FRAME`, `ACK`, `FRAME` of the same bytes
the outputs are those after the first, the payload port at every index included. -/
def Obligations.DecodingTwiceGivesTheSame : Prop :=
  ∀ (raw : List Byte) (s : State), s.Idle →
    ∃ t u v, exec (.frame raw) s = .next t ∧ exec .ack t = .next u ∧ exec (.frame raw) u = .next v ∧ SameOutputs t v

/-- R27: the outcome of a frame depends on its bytes only: from any two idle blocks, whatever their buffers hold, the
same bytes give the same results and the same payload. -/
def Obligations.OutcomeDependsOnTheFrameOnly : Prop :=
  ∀ (raw : List Byte) (s u : State), s.Idle → u.Idle →
    ∃ t v, exec (.frame raw) s = .next t ∧ exec (.frame raw) u = .next v ∧ t.res = v.res ∧ t.cnt = v.cnt ∧
      t.st = v.st ∧ ∀ i, readPort t i = readPort v i

/-- R141, R137: after `ACK` the block serves the next frame exactly as it would after `RST`, but that `perr` keeps its
value. -/
def Obligations.AckServesTheNextFrameAsResetDoes : Prop :=
  ∀ (raw : List Byte) (s : State), s.st = .done →
    ∃ a r t u, exec .ack s = .next a ∧ exec .rst s = .next r ∧ exec (.frame raw) a = .next t ∧
      exec (.frame raw) r = .next u ∧ t = { u with perr := s.perr }

/-- 95_test_vectors.md 2.1 with R16 to R20, R70: a frame built by the recipe for the machine's own checksum functions is
accepted from any idle block, every one of its registers is as the rules say (`f_hck` is `CK8` of the frame's first three
bytes, `f_trailer` is `CK16` of the frame less its last two), and its payload is read back in place byte for byte. -/
def Obligations.RecipeFrameIsServedWhole : Prop :=
  ∀ (B : List Byte) (s : State), 7 ≤ B.length → B.length ≤ 505 → s.Idle →
    ∃ t, exec (.frame (recipeFrame Config.engine B)) s = .next t ∧ t.st = .done ∧ t.perr = s.perr ∧
      t.cnt.toNat = B.length + 6 ∧ t.res.status = 0 ∧ t.res.infoA = 0 ∧ t.res.infoB = 0 ∧
      t.res.fLength.toNat = B.length + 6 ∧ t.res.fVersion = 1 ∧
      t.res.fHck = Config.ck8 ((recipeFrame Config.engine B).take 3) ∧
      t.res.fTrailer = Config.ck16 ((recipeFrame Config.engine B).take (B.length + 4)) ∧
      t.res.fSkind.toNat = byteAt B 0 / 32 ∧ t.res.fSid.toNat = 2 * (byteAt B 0 / 2 % 8) ∧
      t.res.fTkind.toNat = byteAt B 1 / 32 ∧ t.res.fTid.toNat = 2 * (byteAt B 1 / 2 % 8) ∧
      t.res.fSeq.toNat = byteAt B 2 + 256 * byteAt B 3 ∧
      t.res.fCtype.toNat = 32 * (byteAt B 4 / 32) ∧ t.res.fCset.toNat = byteAt B 5 ∧
      t.res.fCid.toNat = byteAt B 6 ∧ t.res.fPlen.toNat = B.length - 7 ∧
      ∀ i : PayloadIndex, readPort t i =
        if i.toNat < B.length - 7 then some (B.getD (7 + i.toNat) 0, true) else some (0, false)

/-! ### The function Decode -/

/-- R72, R80, R108: `Decode`, as one chain of numeric tests in the source's order and one record of numeric fields, for
any checksum engine; and `Decode'` beside it. -/
def Obligations.DecodeIsTheChainOfChecks : Prop :=
  ∀ (E : ChecksumEngine) (raw : List Byte),
    decode E raw =
      (if raw.head? ≠ some 0x55 then .fail .invalidMagic
      else if raw.length < 13 then .fail .packetTooShort
      else if 511 < raw.length then .fail .packetTooLong
      else if storedTrailer raw ≠ (E.ck16 (raw.take (raw.length - 2))).toNat then
        .fail (.trailerChecksumMismatch (E.ck16 (raw.take (raw.length - 2))) (BitVec.ofNat 16 (storedTrailer raw)))
      else if byteAt raw 2 / 4 ≠ 1 then .fail (.unsupportedVersion (BitVec.ofNat 6 (byteAt raw 2 / 4)))
      else if byteAt raw 1 + 256 * (byteAt raw 2 % 4) ≠ raw.length then
        .fail (.lengthMismatch (BitVec.ofNat 10 (byteAt raw 1 + 256 * (byteAt raw 2 % 4))) raw.length)
      else if (E.ck8 (raw.take 3)).toNat ≠ byteAt raw 3 then
        .fail (.headerChecksumMismatch (E.ck8 (raw.take 3)) (BitVec.ofNat 8 (byteAt raw 3)))
      else .ok
        { length := BitVec.ofNat 10 (byteAt raw 1 + 256 * (byteAt raw 2 % 4))
          version := BitVec.ofNat 6 (byteAt raw 2 / 4)
          headerChecksum := BitVec.ofNat 8 (byteAt raw 3)
          sourceKind := BitVec.ofNat 3 (byteAt raw 4 / 32)
          sourceId := BitVec.ofNat 4 (2 * (byteAt raw 4 / 2 % 8))
          targetKind := BitVec.ofNat 3 (byteAt raw 5 / 32)
          targetId := BitVec.ofNat 4 (2 * (byteAt raw 5 / 2 % 8))
          sequenceNumber := BitVec.ofNat 16 (byteAt raw 6 + 256 * byteAt raw 7)
          commandType := BitVec.ofNat 8 (32 * (byteAt raw 8 / 32))
          commandSet := BitVec.ofNat 8 (byteAt raw 9)
          commandId := BitVec.ofNat 8 (byteAt raw 10)
          payload := (raw.drop 11).take (raw.length - 13)
          trailer := BitVec.ofNat 16 (storedTrailer raw) }) ∧
    (∀ n, n ≤ 511 → decodeBuffered E n raw = decode E raw) ∧
    decodeBuffered E 512 raw = if raw.head? ≠ some 0x55 then .fail .invalidMagic else .fail .packetTooLong

/-- R89: `Decode` succeeds if and only if the source's six invariants hold of the bytes. -/
def Obligations.DecodeSucceedsIffInvariantsHold : Prop :=
  ∀ (E : ChecksumEngine) (raw : List Byte),
    (∃ p, decode E raw = .ok p) ↔
      (raw.head? = some 0x55 ∧ 13 ≤ raw.length ∧ raw.length ≤ 511 ∧
        (E.ck16 (raw.take (raw.length - 2))).toNat = storedTrailer raw ∧ byteAt raw 2 / 4 = 1 ∧
        byteAt raw 1 + 256 * (byteAt raw 2 % 4) = raw.length ∧ (E.ck8 (raw.take 3)).toNat = byteAt raw 3)

/-- R91 and R88, the two properties of the length window: below 13 bytes `PacketTooShort` or `InvalidMagic`, whichever
check fires first; above 511 bytes `PacketTooLong` or, with a wrong first byte, `InvalidMagic`. -/
def Obligations.LengthWindowOutcomes : Prop :=
  ∀ (E : ChecksumEngine) (raw : List Byte),
    (raw.length < 13 → decode E raw = .fail (if raw.head? = some 0x55 then .packetTooShort else .invalidMagic)) ∧
    (511 < raw.length → decode E raw = .fail (if raw.head? = some 0x55 then .packetTooLong else .invalidMagic))

/-- R91, the round trip: the recipe's frame is accepted under any checksum engine, with the body's payload and the
checksum as its trailer. -/
def Obligations.RecipeFrameDecodes : Prop :=
  ∀ (E : ChecksumEngine) (B : List Byte), 7 ≤ B.length → B.length ≤ 505 →
    ∃ p, decode E (recipeFrame E B) = .ok p ∧ p.length.toNat = (recipeFrame E B).length ∧
      (recipeFrame E B).length = B.length + 6 ∧ p.version = 1 ∧ p.payload = B.drop 7 ∧
      p.trailer = E.ck16 ((recipeFrame E B).take (B.length + 4))

/-- R59: every accepted frame has the recogniser's bits; its `raw[2]` is 0x04 up to 255 bytes and 0x05 from 256 on, and its
`raw[1]` is the low byte of its length. -/
def Obligations.AcceptedFramesAreRecognised : Prop :=
  ∀ (E : ChecksumEngine) (raw : List Byte) (p : DecodedPacket), decode E raw = .ok p →
    headerRecognised raw = true ∧ (raw.length ≤ 255 → byteAt raw 2 = 4) ∧ (256 ≤ raw.length → byteAt raw 2 = 5) ∧
      byteAt raw 1 = raw.length % 256

/-- R57: the unassigned bits (4 and 0 of bytes 4 and 5, 4..0 of byte 8) show in no field: of two accepted frames of one
length that agree in all else before the trailer, every field but the trailer value agrees. -/
def Obligations.UnassignedBitsShowInNoField : Prop :=
  ∀ (E : ChecksumEngine) (raw raw' : List Byte) (p p' : DecodedPacket),
    decode E raw = .ok p → decode E raw' = .ok p' → raw.length = raw'.length →
    (∀ i, i < raw.length - 2 → i ≠ 4 → i ≠ 5 → i ≠ 8 → byteAt raw i = byteAt raw' i) →
    raw.getD 4 0 &&& 0xEE = raw'.getD 4 0 &&& 0xEE → raw.getD 5 0 &&& 0xEE = raw'.getD 5 0 &&& 0xEE →
    raw.getD 8 0 &&& 0xE0 = raw'.getD 8 0 &&& 0xE0 →
    p' = { p with trailer := p'.trailer }

/-- R2, R72: `Decode` as an operation of its own (its answer in the model's own field `answer`, notes/assumptions/6.md and
12.md) answers the same outcome the shell shows, for every byte sequence, and leaves the block as it was. -/
def Obligations.DecodeOperationAgreesWithTheShell : Prop :=
  ∀ (raw : List Byte) (s : State),
    exec (.df raw) s = .next { s with answer := .outcome (decode Config.engine raw) } ∧
    (s.Idle → ∃ t, exec (.frame raw) s = .next t ∧ t.res = (decode Config.engine raw).results)

/-- R126 to R132, R15: what a frame leaves in the result registers, cause by cause in the order of the checks, for any
checksum engine and any idle block; `FRAME` uses the machine's own engine. -/
def Obligations.FailedFrameRecordsItsCause : Prop :=
  ∀ (E : ChecksumEngine) (raw : List Byte) (s : State), s.Idle →
    exec (.frame raw) s = closeFrame Config.engine (pushBytes raw s) ∧
    ∃ t, closeFrame E (pushBytes raw s) = .next t ∧ t.st = .done ∧ t.cnt.toNat = min raw.length 512 ∧
      if raw.head? ≠ some 0x55 then t.res = { Results.cleared with status := 1 }
      else if raw.length < 13 then t.res = { Results.cleared with status := 2 }
      else if 511 < raw.length then t.res = { Results.cleared with status := 3 }
      else if (E.ck16 (raw.take (raw.length - 2))).toNat ≠ storedTrailer raw then
        t.res = { Results.cleared with status := 4, infoA := t.res.infoA, infoB := t.res.infoB } ∧
          t.res.infoA = E.ck16 (raw.take (raw.length - 2)) ∧ t.res.infoB.toNat = storedTrailer raw
      else if byteAt raw 2 / 4 ≠ 1 then
        t.res = { Results.cleared with status := 5, infoA := t.res.infoA } ∧ t.res.infoA.toNat = byteAt raw 2 / 4
      else if byteAt raw 1 + 256 * (byteAt raw 2 % 4) ≠ raw.length then
        t.res = { Results.cleared with status := 6, infoA := t.res.infoA, infoB := t.res.infoB } ∧
          t.res.infoA.toNat = byteAt raw 1 + 256 * (byteAt raw 2 % 4) ∧ t.res.infoB.toNat = raw.length
      else if (E.ck8 (raw.take 3)).toNat ≠ byteAt raw 3 then
        t.res = { Results.cleared with status := 7, infoA := t.res.infoA, infoB := t.res.infoB } ∧
          t.res.infoA.toNat = (E.ck8 (raw.take 3)).toNat ∧ t.res.infoB.toNat = byteAt raw 3
      else t.res.status = 0

/-! ### The named functions of the decode layer

That they are applied by name, and that the field `answer` records what they answer, is the model's choice
(notes/assumptions/6.md, 9.md). For byte sequences of 13 to 511 bytes the values are the rules'. The checks 1 to 3 and the
checksum functions take any byte sequence by their rules. That the formula of a check 4 to 7 or of an extraction also gives
its value outside 13 to 511 bytes, wherever the bytes it reads exist, is the model's choice (notes/assumptions/9.md). -/

/-- R81, R82, R83: the magic byte check and the two length checks, on any byte sequence, the empty one included. -/
def Obligations.MagicAndLengthChecksAnswer : Prop :=
  ∀ (raw : List Byte) (s : State),
    exec (.chk1 raw) s = .next { s with answer := (
      if raw.length = 0 ∨ byteAt raw 0 ≠ 0x55 then .raised .invalidMagic else .passed) } ∧
    exec (.chk2 raw) s = .next { s with answer := (
      if raw.length < 13 then .raised .packetTooShort else .passed) } ∧
    exec (.chk3 raw) s = .next { s with answer := (
      if 511 < raw.length then .raised .packetTooLong else .passed) }

/-- R84, R85, R86, R87 on 13 to 511 bytes: the checks 4 to 7, each with the values it raises. Above 511 bytes, where by R80
no check 4 to 7 runs, that the same tests hold is the model's choice (notes/assumptions/9.md), not the rules'. Below 13 bytes
see `NamedFunctionsAnswerOnAnyBytes`. -/
def Obligations.ContentChecksAnswer : Prop :=
  ∀ (raw : List Byte) (s : State), 13 ≤ raw.length →
    exec (.chk4 raw) s = .next { s with answer := (
      if storedTrailer raw ≠ (Config.ck16 (raw.take (raw.length - 2))).toNat then
        .raised (.trailerChecksumMismatch (Config.ck16 (raw.take (raw.length - 2)))
          (BitVec.ofNat 16 (storedTrailer raw)))
      else .passed) } ∧
    exec (.chk5 raw) s = .next { s with answer := (
      if byteAt raw 2 / 4 ≠ 1 then .raised (.unsupportedVersion (BitVec.ofNat 6 (byteAt raw 2 / 4))) else .passed) } ∧
    exec (.chk6 raw) s = .next { s with answer := (
      if byteAt raw 1 + 256 * (byteAt raw 2 % 4) ≠ raw.length then
        .raised (.lengthMismatch (BitVec.ofNat 10 (byteAt raw 1 + 256 * (byteAt raw 2 % 4))) raw.length)
      else .passed) } ∧
    exec (.chk7 raw) s = .next { s with answer := (
      if (Config.ck8 (raw.take 3)).toNat ≠ byteAt raw 3 then
        .raised (.headerChecksumMismatch (Config.ck8 (raw.take 3)) (BitVec.ofNat 8 (byteAt raw 3)))
      else .passed) }

/-- R95, R96, R97 on 13 to 511 bytes: the header's fields as numbers, with their widths. Outside 13 to 511 bytes, wherever
the bytes they read exist, that the same formulas hold is the model's choice (notes/assumptions/9.md), not the rules'. -/
def Obligations.HeaderExtractionsAnswer : Prop :=
  ∀ (raw : List Byte) (s : State),
    (3 ≤ raw.length →
      exec (.xlen raw) s = .next { s with answer := .number 10 (byteAt raw 1 + 256 * (byteAt raw 2 % 4)) }) ∧
    (3 ≤ raw.length → exec (.xver raw) s = .next { s with answer := .number 6 (byteAt raw 2 / 4) }) ∧
    (4 ≤ raw.length → exec (.xhck raw) s = .next { s with answer := .number 8 (byteAt raw 3) })

/-- R98 to R102 on 13 to 511 bytes: the transit block's fields as numbers: kinds shifted down, ids even and unshifted, the
sequence number low byte first. Outside 13 to 511 bytes, wherever the bytes they read exist, that the same formulas hold is
the model's choice (notes/assumptions/9.md), not the rules'. -/
def Obligations.TransitExtractionsAnswer : Prop :=
  ∀ (raw : List Byte) (s : State),
    (5 ≤ raw.length → exec (.xskind raw) s = .next { s with answer := .number 3 (byteAt raw 4 / 32) }) ∧
    (5 ≤ raw.length → exec (.xsid raw) s = .next { s with answer := .number 4 (2 * (byteAt raw 4 / 2 % 8)) }) ∧
    (6 ≤ raw.length → exec (.xtkind raw) s = .next { s with answer := .number 3 (byteAt raw 5 / 32) }) ∧
    (6 ≤ raw.length → exec (.xtid raw) s = .next { s with answer := .number 4 (2 * (byteAt raw 5 / 2 % 8)) }) ∧
    (8 ≤ raw.length →
      exec (.xseq raw) s = .next { s with answer := .number 16 (byteAt raw 6 + 256 * byteAt raw 7) })

/-- R103, R104, R105 on 13 to 511 bytes: the command block's fields as numbers: the type a multiple of 32, unshifted. Outside
13 to 511 bytes, wherever the byte they read exists, that the same formulas hold is the model's choice
(notes/assumptions/9.md), not the rules'. -/
def Obligations.CommandExtractionsAnswer : Prop :=
  ∀ (raw : List Byte) (s : State),
    (9 ≤ raw.length → exec (.xctype raw) s = .next { s with answer := .number 8 (32 * (byteAt raw 8 / 32)) }) ∧
    (10 ≤ raw.length → exec (.xcset raw) s = .next { s with answer := .number 8 (byteAt raw 9) }) ∧
    (11 ≤ raw.length → exec (.xcid raw) s = .next { s with answer := .number 8 (byteAt raw 10) })

/-- R106, R107 on 13 to 511 bytes: the payload is the bytes at offsets 11 to n-3, its length is n-13, and the trailer is the
last two bytes, low byte first. Outside 13 to 511 bytes this is the model's choice (notes/assumptions/9.md), not the rules':
the empty payload below 13 bytes, the same payload bytes above 511, the length n-13 from 512 to 524 bytes, and the trailer
wherever there are two bytes. The length below 13 and above 524 bytes is a free value (notes/assumptions/17.md), of which
nothing is said. -/
def Obligations.PayloadAndTrailerExtractionsAnswer : Prop :=
  ∀ (raw : List Byte) (s : State),
    (∃ payload plen, exec (.xpay raw) s = .next { s with answer := .payload payload plen } ∧
      payload.length = raw.length - 13 ∧ (∀ i, i < raw.length - 13 → payload[i]? = raw[11 + i]?) ∧
      (13 ≤ raw.length → raw.length ≤ 524 → plen.toNat = raw.length - 13)) ∧
    (2 ≤ raw.length → exec (.xtrl raw) s = .next { s with answer := .number 16 (storedTrailer raw) })

/-- R115, R116: the checksum functions applied to any byte sequence answer what the open parameters give. -/
def Obligations.ChecksumFunctionsAnswer : Prop :=
  ∀ (bytes : List Byte) (s : State),
    exec (.ck8 bytes) s = .next { s with answer := .number 8 (Config.ck8 bytes).toNat } ∧
    exec (.ck16 bytes) s = .next { s with answer := .number 16 (Config.ck16 bytes).toNat }

/-- The named functions stop on no operand: on every byte sequence, the empty one included, each answers and changes
nothing else. Where the bytes a rule reads do not exist (and for the checks 4 to 7 on fewer than 13 bytes, R88) the spec
states no value, the answer is a free value (the model's choice, notes/assumptions/17.md) and this says no more of it than
its kind: a check passes or raises its own failure, of `CHK6` with the true `n`; a field has its width, an id stays even, a
command type a multiple of 32 (R54, R56). -/
def Obligations.NamedFunctionsAnswerOnAnyBytes : Prop :=
  ∀ (raw : List Byte) (s : State),
    (exec (.chk4 raw) s = .next { s with answer := .passed } ∨
      ∃ e a, exec (.chk4 raw) s = .next { s with answer := .raised (.trailerChecksumMismatch e a) }) ∧
    (exec (.chk5 raw) s = .next { s with answer := .passed } ∨
      ∃ v, exec (.chk5 raw) s = .next { s with answer := .raised (.unsupportedVersion v) }) ∧
    (exec (.chk6 raw) s = .next { s with answer := .passed } ∨
      ∃ d, exec (.chk6 raw) s = .next { s with answer := .raised (.lengthMismatch d raw.length) }) ∧
    (exec (.chk7 raw) s = .next { s with answer := .passed } ∨
      ∃ e a, exec (.chk7 raw) s = .next { s with answer := .raised (.headerChecksumMismatch e a) }) ∧
    (∃ v, exec (.xlen raw) s = .next { s with answer := .number 10 v } ∧ v < 1024) ∧
    (∃ v, exec (.xver raw) s = .next { s with answer := .number 6 v } ∧ v < 64) ∧
    (∃ v, exec (.xhck raw) s = .next { s with answer := .number 8 v } ∧ v < 256) ∧
    (∃ v, exec (.xskind raw) s = .next { s with answer := .number 3 v } ∧ v < 8) ∧
    (∃ v, exec (.xsid raw) s = .next { s with answer := .number 4 v } ∧ v < 16 ∧ v % 2 = 0) ∧
    (∃ v, exec (.xtkind raw) s = .next { s with answer := .number 3 v } ∧ v < 8) ∧
    (∃ v, exec (.xtid raw) s = .next { s with answer := .number 4 v } ∧ v < 16 ∧ v % 2 = 0) ∧
    (∃ v, exec (.xseq raw) s = .next { s with answer := .number 16 v } ∧ v < 65536) ∧
    (∃ v, exec (.xctype raw) s = .next { s with answer := .number 8 v } ∧ v < 256 ∧ v % 32 = 0) ∧
    (∃ v, exec (.xcset raw) s = .next { s with answer := .number 8 v } ∧ v < 256) ∧
    (∃ v, exec (.xcid raw) s = .next { s with answer := .number 8 v } ∧ v < 256) ∧
    (∃ payload plen, exec (.xpay raw) s = .next { s with answer := .payload payload plen }) ∧
    (∃ v, exec (.xtrl raw) s = .next { s with answer := .number 16 v } ∧ v < 65536)

/-! ### Decoding -/

/-- R45, R46, R47, R60: decode and encode agree, for every instruction, well formed or not, with every operand at every
value. -/
def Obligations.DecodeInvertsEncode : Prop :=
  ∀ i : Instr, decodeInput (encode i) = .ok i

/-- R46: every one of the 1024 command words matches exactly one row of the command table, and the decoder gives it the
operation of that row; for `NOP`, `END` and `ACK` the `data` bits take no part, and `PUSH b` is 0x100 + b (R47). `RST` and
`RDPL` are not command words. -/
def Obligations.CommandWordsDecodeByTheirRow : Prop :=
  ∀ w : CommandWord,
    (commandTable.filter (fun r => r.covers w)).length = 1 ∧
    (w &&& 0x300 = 0x000 → decodeCommand w = .nop) ∧
    (w &&& 0x300 = 0x100 → ∃ b : Byte, decodeCommand w = .push b ∧ w.toNat = 0x100 + b.toNat) ∧
    (w &&& 0x300 = 0x200 → decodeCommand w = .endFrame) ∧
    (w &&& 0x300 = 0x300 → decodeCommand w = .ack) ∧
    decodeCommand w ≠ .rst ∧ (∀ i, decodeCommand w ≠ .rdpl i) ∧ decodeInput (.clock true w) = .ok .rst

/-- R46, R47, R60, R74: words written out from the spec decode to the instructions they stand for. -/
def Obligations.SpecWordsDecode : Prop :=
  decodeTableWord 16 0b0000000000 = some .nop ∧ decodeTableWord 16 0b0011111111 = some .nop ∧
    decodeTableWord 16 0b0101010101 = some (.push 0x55) ∧ decodeTableWord 16 0b1011111111 = some .endFrame ∧
    decodeTableWord 16 0b1110100101 = some .ack ∧ decodeInput (.clock true 0b0101010101) = .ok .rst ∧
    decodeInput (.assembly ['5', '5', ' ', '0', 'd']) = .ok (.frame [0x55, 0x0D])

/-- R60, R133: a `FRAME` line is accepted exactly where its text, the spaces stripped, is an even number of hex digits, and
is otherwise refused as `MalformedHexInput`. The bytes it spells: byte `j` is 16 times the value of the stripped text's
digit `2j` plus the value of its digit `2j + 1`; a digit's value is its place in `0-9`, `a-f` or `A-F` (from ten on in
either letter case), and nothing but the space is stripped. -/
def Obligations.HexStringsAreAcceptedExactly : Prop :=
  (∀ c : Char,
    ('0' ≤ c ∧ c ≤ '9' → hexValue c = some (c.toNat - '0'.toNat)) ∧
    ('a' ≤ c ∧ c ≤ 'f' → hexValue c = some (10 + (c.toNat - 'a'.toNat))) ∧
    ('A' ≤ c ∧ c ≤ 'F' → hexValue c = some (10 + (c.toNat - 'A'.toNat)))) ∧
  ∀ text : List Char,
    stripSpaces text = text.filter (fun c => c ≠ ' ') ∧
    ((stripSpaces text).length % 2 = 0 ∧
        (∀ c ∈ stripSpaces text, ('0' ≤ c ∧ c ≤ '9') ∨ ('a' ≤ c ∧ c ≤ 'f') ∨ ('A' ≤ c ∧ c ≤ 'F')) →
      ∃ bytes, decodeInput (.assembly text) = .ok (.frame bytes) ∧
        2 * bytes.length = (stripSpaces text).length ∧
        ∀ j, j < bytes.length → ∃ hi lo,
          (stripSpaces text)[2 * j]?.bind hexValue = some hi ∧
          (stripSpaces text)[2 * j + 1]?.bind hexValue = some lo ∧ byteAt bytes j = 16 * hi + lo) ∧
    (¬ ((stripSpaces text).length % 2 = 0 ∧
        (∀ c ∈ stripSpaces text, ('0' ≤ c ∧ c ≤ '9') ∨ ('a' ≤ c ∧ c ≤ 'f') ∨ ('A' ≤ c ∧ c ≤ 'F'))) →
      decodeInput (.assembly text) = .error .malformedHexInput)

/-- R119, R120, R122 (the candidate instantiation, notes/assumptions/7.md): under it the source's example frame is accepted
with the fields of 95_test_vectors.md S1, and its two checksum values are those of R122. -/
def Obligations.CandidateAcceptsTheSourcesFrame : Prop :=
  candidateCk8 [0x55, 0x0D, 0x04] = 0x33 ∧
    candidateCk16 [0x55, 0x0D, 0x04, 0x33, 0x2A, 0x28, 0x35, 0x12, 0x40, 0x00, 0x00] = 0xE42A ∧
    decode candidateEngine [0x55, 0x0D, 0x04, 0x33, 0x2A, 0x28, 0x35, 0x12, 0x40, 0x00, 0x00, 0x2A, 0xE4] =
      .ok { length := 13, version := 1, headerChecksum := 0x33, sourceKind := 1, sourceId := 10, targetKind := 1,
            targetId := 8, sequenceNumber := 4661, commandType := 64, commandSet := 0, commandId := 0, payload := [],
            trailer := 0xE42A }
end

