-- ==== Sys2Proof/Laws/State.lean ====
section
/-! SUPPORT. One lemma per field per state update, each true by rfl, so that no later proof unfolds an update. -/

namespace Sys2Proof.Machine

@[simp] theorem raiseProtocolError_st (s : State) : (raiseProtocolError s).st = s.st := rfl
@[simp] theorem raiseProtocolError_cnt (s : State) : (raiseProtocolError s).cnt = s.cnt := rfl
@[simp] theorem raiseProtocolError_mem (s : State) : (raiseProtocolError s).mem = s.mem := rfl
@[simp] theorem raiseProtocolError_res (s : State) : (raiseProtocolError s).res = s.res := rfl
@[simp] theorem raiseProtocolError_perr (s : State) : (raiseProtocolError s).perr = true := rfl
@[simp] theorem raiseProtocolError_answer (s : State) : (raiseProtocolError s).answer = s.answer := rfl
@[simp] theorem raiseProtocolError_inputs (s : State) : (raiseProtocolError s).inputs = s.inputs := rfl

@[simp] theorem recordOutcome_st (o : DecodeOutcome) (s : State) : (recordOutcome o s).st = .done := rfl
@[simp] theorem recordOutcome_cnt (o : DecodeOutcome) (s : State) : (recordOutcome o s).cnt = s.cnt := rfl
@[simp] theorem recordOutcome_mem (o : DecodeOutcome) (s : State) : (recordOutcome o s).mem = s.mem := rfl
@[simp] theorem recordOutcome_res (o : DecodeOutcome) (s : State) : (recordOutcome o s).res = o.results := rfl
@[simp] theorem recordOutcome_perr (o : DecodeOutcome) (s : State) : (recordOutcome o s).perr = s.perr := rfl
@[simp] theorem recordOutcome_answer (o : DecodeOutcome) (s : State) : (recordOutcome o s).answer = s.answer := rfl
@[simp] theorem recordOutcome_inputs (o : DecodeOutcome) (s : State) : (recordOutcome o s).inputs = s.inputs := rfl

@[simp] theorem releaseResult_st (s : State) : (releaseResult s).st = .recv := rfl
@[simp] theorem releaseResult_cnt (s : State) : (releaseResult s).cnt = 0 := rfl
@[simp] theorem releaseResult_mem (s : State) : (releaseResult s).mem = s.mem := rfl
@[simp] theorem releaseResult_res (s : State) : (releaseResult s).res = Results.cleared := rfl
@[simp] theorem releaseResult_perr (s : State) : (releaseResult s).perr = s.perr := rfl
@[simp] theorem releaseResult_answer (s : State) : (releaseResult s).answer = s.answer := rfl
@[simp] theorem releaseResult_inputs (s : State) : (releaseResult s).inputs = s.inputs := rfl

@[simp] theorem resetRegisters_st (s : State) : (resetRegisters s).st = .recv := rfl
@[simp] theorem resetRegisters_cnt (s : State) : (resetRegisters s).cnt = 0 := rfl
@[simp] theorem resetRegisters_mem (s : State) : (resetRegisters s).mem = s.mem := rfl
@[simp] theorem resetRegisters_res (s : State) : (resetRegisters s).res = Results.cleared := rfl
@[simp] theorem resetRegisters_perr (s : State) : (resetRegisters s).perr = false := rfl
@[simp] theorem resetRegisters_answer (s : State) : (resetRegisters s).answer = s.answer := rfl
@[simp] theorem resetRegisters_inputs (s : State) : (resetRegisters s).inputs = s.inputs := rfl

@[simp] theorem answerWith_st (a : Answer) (s : State) : (answerWith a s).st = s.st := rfl
@[simp] theorem answerWith_cnt (a : Answer) (s : State) : (answerWith a s).cnt = s.cnt := rfl
@[simp] theorem answerWith_mem (a : Answer) (s : State) : (answerWith a s).mem = s.mem := rfl
@[simp] theorem answerWith_res (a : Answer) (s : State) : (answerWith a s).res = s.res := rfl
@[simp] theorem answerWith_perr (a : Answer) (s : State) : (answerWith a s).perr = s.perr := rfl
@[simp] theorem answerWith_answer (a : Answer) (s : State) : (answerWith a s).answer = a := rfl
@[simp] theorem answerWith_inputs (a : Answer) (s : State) : (answerWith a s).inputs = s.inputs := rfl

@[simp] theorem memWrite_st (addr : BufferIndex) (v : Byte) (s : State) : (memWrite addr v s).st = s.st := rfl
@[simp] theorem memWrite_cnt (addr : BufferIndex) (v : Byte) (s : State) : (memWrite addr v s).cnt = s.cnt := rfl
@[simp] theorem memWrite_mem (addr : BufferIndex) (v : Byte) (s : State) : (memWrite addr v s).mem = Memory.store s.mem addr.val v := rfl
@[simp] theorem memWrite_res (addr : BufferIndex) (v : Byte) (s : State) : (memWrite addr v s).res = s.res := rfl
@[simp] theorem memWrite_perr (addr : BufferIndex) (v : Byte) (s : State) : (memWrite addr v s).perr = s.perr := rfl
@[simp] theorem memWrite_answer (addr : BufferIndex) (v : Byte) (s : State) : (memWrite addr v s).answer = s.answer := rfl
@[simp] theorem memWrite_inputs (addr : BufferIndex) (v : Byte) (s : State) : (memWrite addr v s).inputs = s.inputs := rfl

@[simp] theorem withInputs_st (s : State) (rest : List Input) : (s.withInputs rest).st = s.st := rfl
@[simp] theorem withInputs_cnt (s : State) (rest : List Input) : (s.withInputs rest).cnt = s.cnt := rfl
@[simp] theorem withInputs_mem (s : State) (rest : List Input) : (s.withInputs rest).mem = s.mem := rfl
@[simp] theorem withInputs_res (s : State) (rest : List Input) : (s.withInputs rest).res = s.res := rfl
@[simp] theorem withInputs_perr (s : State) (rest : List Input) : (s.withInputs rest).perr = s.perr := rfl
@[simp] theorem withInputs_answer (s : State) (rest : List Input) : (s.withInputs rest).answer = s.answer := rfl
@[simp] theorem withInputs_inputs (s : State) (rest : List Input) : (s.withInputs rest).inputs = rest := rfl

@[simp] theorem reset_st : State.reset.st = .recv := rfl
@[simp] theorem reset_cnt : State.reset.cnt = 0 := rfl
@[simp] theorem reset_mem : State.reset.mem = [] := rfl
@[simp] theorem reset_res : State.reset.res = Results.cleared := rfl
@[simp] theorem reset_perr : State.reset.perr = false := rfl
@[simp] theorem reset_answer : State.reset.answer = .nothing := rfl
@[simp] theorem reset_inputs : State.reset.inputs = [] := rfl

/-- The written range depends on the counter only. -/
theorem written_congr {s t : State} (h : s.cnt = t.cnt) : s.written = t.written := by
  unfold State.written; rw [h]

/-- Reading a byte depends on the counter and the cells only. -/
theorem memRead_congr {s t : State} (hc : s.cnt = t.cnt) (hm : s.mem = t.mem) (a : Nat) : memRead s a = memRead t a := by
  unfold memRead; rw [written_congr hc, hm]

end Sys2Proof.Machine
end

