-- ==== Sys2Proof/Laws/Ops.lean ====
section
/-! SUPPORT. What the buffer operations do: read after write, the canonical form, and reading a range. -/

namespace Sys2Proof.Machine

/-! ### The cells -/

/-- Reading back a stored byte. -/
@[simp] theorem lookup_store_same (m : List Host.Cell) (a : Nat) (v : Byte) :
    Memory.lookup (Memory.store m a v) a = some v := by
  induction m with
  | nil => simp [Memory.store, Memory.lookup]
  | cons c rest ih =>
    obtain ⟨b, w⟩ := c
    simp only [Memory.store]
    split
    · simp [Memory.lookup]
    · split
      · simp [Memory.lookup]
      · rw [Memory.lookup, if_neg (by omega), ih]

/-- A store leaves every other index alone. -/
theorem lookup_store_other (m : List Host.Cell) {a d : Nat} (v : Byte) (h : d ≠ a) :
    Memory.lookup (Memory.store m a v) d = Memory.lookup m d := by
  induction m with
  | nil => simp [Memory.store, Memory.lookup, h.symm]
  | cons c rest ih =>
    obtain ⟨b, w⟩ := c
    simp only [Memory.store]
    split
    · rw [Memory.lookup, if_neg h.symm]
    · split
      · subst_vars; simp [Memory.lookup, h.symm]
      · simp only [Memory.lookup, ih]

/-- The indices listed after a store. -/
theorem mem_store_fst {m : List Host.Cell} {a : Nat} {v : Byte} {c : Host.Cell} (h : c ∈ Memory.store m a v) :
    c.1 = a ∨ c ∈ m := by
  induction m with
  | nil => simp only [Memory.store, List.mem_singleton] at h; simp [h]
  | cons d rest ih =>
    obtain ⟨b, w⟩ := d
    simp only [Memory.store] at h
    split at h
    · rcases List.mem_cons.mp h with rfl | h
      · simp
      · exact .inr h
    · split at h
      · rcases List.mem_cons.mp h with rfl | h
        · simp
        · exact .inr (List.mem_cons_of_mem _ h)
      · rcases List.mem_cons.mp h with rfl | h
        · simp
        · exact (ih h).imp id (List.mem_cons_of_mem _)

/-- Storing a byte at an index of the buffer keeps the canonical form: the only memory operation there is. -/
theorem store_wf {m : List Host.Cell} {a : Nat} (v : Byte) (h : Memory.wf m) (ha : a < Config.bufBytes) :
    Memory.wf (Memory.store m a v) := by
  refine ⟨?_, fun c hc => ?_⟩
  · have hp := h.1
    clear h ha
    induction m with
    | nil => simp [Memory.store]
    | cons d rest ih =>
      obtain ⟨b, w⟩ := d
      obtain ⟨hhead, htail⟩ := List.pairwise_cons.mp hp
      simp only [Memory.store]
      split
      next hlt =>
        refine List.pairwise_cons.mpr ⟨fun c hc => ?_, hp⟩
        rcases List.mem_cons.mp hc with rfl | hc
        · exact hlt
        · exact Nat.lt_trans hlt (hhead c hc)
      next hge =>
        split
        next heq => exact List.pairwise_cons.mpr ⟨fun c hc => by have := hhead c hc; simp_all, htail⟩
        next hne =>
          refine List.pairwise_cons.mpr ⟨fun c hc => ?_, ih htail⟩
          rcases mem_store_fst hc with h | h
          · simp only at h ⊢; omega
          · exact hhead c h
  · rcases mem_store_fst hc with h' | h'
    · omega
    · exact h.2 c h'

/-- `memWrite` keeps the canonical form. -/
theorem memWrite_wf {s : State} (a : BufferIndex) (v : Byte) (h : Memory.wf s.mem) : Memory.wf (memWrite a v s).mem :=
  store_wf v h a.isLt

/-- The reset state's buffer has the canonical form. -/
theorem reset_mem_wf : Memory.wf State.reset.mem := ⟨List.Pairwise.nil, fun _ h => by cases h⟩

/-! ### The written range -/

theorem written_le (s : State) : s.written ≤ 511 := Nat.min_le_right _ _

theorem written_le_cnt (s : State) : s.written ≤ s.cnt.toNat := Nat.min_le_left _ _

theorem memRead_of_lt {s : State} {a : Nat} (h : a < s.written) : memRead s a = Memory.lookup s.mem a := if_pos h

theorem memRead_of_ge {s : State} {a : Nat} (h : s.written ≤ a) : memRead s a = none := if_neg (by omega)

/-- A two-byte read is two one-byte reads, low byte first. -/
theorem memRead2_eq_some {s : State} {a : Nat} {lo hi : Byte} (h0 : memRead s a = some lo)
    (h1 : memRead s (a + 1) = some hi) : memRead2 s a = some (le16 lo hi) := by
  simp [memRead2, h0, h1]

/-! ### Reading a range -/

/-- What a range read answers, when it answers: as many bytes as asked for, each the byte of its index. -/
theorem memReadBytes_some {s : State} {a k : Nat} {bs : List Byte} (h : memReadBytes s a k = some bs) :
    bs.length = k ∧ ∀ i, i < k → memRead s (a + i) = bs[i]? := by
  induction k generalizing a bs with
  | zero => simp only [memReadBytes, Option.some.injEq] at h; subst h; simp
  | succ k ih =>
    simp only [memReadBytes] at h
    split at h
    next b cs hb hcs =>
      cases h
      obtain ⟨hl, hr⟩ := ih hcs
      refine ⟨by simp [hl], fun i hi => ?_⟩
      cases i with
      | zero => simpa using hb
      | succ i => rw [show a + (i + 1) = a + 1 + i by omega, hr i (by omega)]; simp
    next => cases h

/-- A range read answers where every byte of the range can be read. -/
theorem memReadBytes_isSome {s : State} {a k : Nat} (h : ∀ i, i < k → ∃ b, memRead s (a + i) = some b) :
    ∃ bs, memReadBytes s a k = some bs := by
  induction k generalizing a with
  | zero => exact ⟨[], rfl⟩
  | succ k ih =>
    obtain ⟨b, hb⟩ := h 0 (by omega)
    obtain ⟨bs, hbs⟩ := ih (a := a + 1) (fun i hi => by
      rw [show a + 1 + i = a + (i + 1) by omega]; exact h (i + 1) (by omega))
    exact ⟨b :: bs, by simp only [Nat.add_zero] at hb; simp [memReadBytes, hb, hbs]⟩

/-- A range read is determined by its length and its bytes. -/
theorem memReadBytes_eq {s : State} {a : Nat} {bs : List Byte}
    (h : ∀ i, i < bs.length → memRead s (a + i) = bs[i]?) : memReadBytes s a bs.length = some bs := by
  induction bs generalizing a with
  | nil => rfl
  | cons b bs ih =>
    have h0 := h 0 (by simp)
    have h1 := ih (a := a + 1) (fun i hi => by
      rw [show a + 1 + i = a + (i + 1) by omega, h (i + 1) (by simpa using hi)]; simp)
    simp only [Nat.add_zero, List.getElem?_cons_zero] at h0
    simp [memReadBytes, h0, h1]

/-- A range read depends on what is read only. -/
theorem memReadBytes_congr {s t : State} (h : ∀ a, memRead s a = memRead t a) (a k : Nat) :
    memReadBytes s a k = memReadBytes t a k := by
  induction k generalizing a with
  | zero => rfl
  | succ k ih => simp only [memReadBytes, h, ih]

/-- The buffered bytes depend on the counter and the cells only. -/
theorem bufferedBytes_congr {s t : State} (hc : s.cnt = t.cnt) (hm : s.mem = t.mem) :
    bufferedBytes s = bufferedBytes t := by
  unfold bufferedBytes
  rw [written_congr hc]
  exact memReadBytes_congr (memRead_congr hc hm) 0 _

/-- Where every index of the written range holds a byte there are buffered bytes. -/
theorem bufferedBytes_isSome {s : State} (h : ∀ a, a < s.written → ∃ b, Memory.lookup s.mem a = some b) :
    ∃ stored, bufferedBytes s = some stored :=
  memReadBytes_isSome (fun i hi => by rw [Nat.zero_add, memRead_of_lt hi]; exact h i hi)

/-- The buffered bytes, when there are any to be had: the written range, byte by byte. -/
theorem bufferedBytes_some {s : State} {bs : List Byte} (h : bufferedBytes s = some bs) :
    bs.length = s.written ∧ ∀ i, i < s.written → memRead s i = bs[i]? := by
  obtain ⟨hl, hr⟩ := memReadBytes_some h
  exact ⟨hl, fun i hi => by have := hr i hi; rwa [Nat.zero_add] at this⟩

/-- The buffered bytes are determined by the written range. -/
theorem bufferedBytes_eq {s : State} {bs : List Byte} (hl : bs.length = s.written)
    (h : ∀ i, i < bs.length → memRead s i = bs[i]?) : bufferedBytes s = some bs := by
  unfold bufferedBytes
  rw [← hl]
  exact memReadBytes_eq (fun i hi => by rw [Nat.zero_add]; exact h i hi)

end Sys2Proof.Machine
end

