-- ==== Sys2Proof/Laws/Commands.lean ====
section
/-! SUPPORT. What each shared operation of the shell can do, said once: the provers cite these instead of unfolding. -/

namespace Sys2Proof.Machine

/-- There are two control states (R11). -/
theorem recv_of_not_done {s : State} (h : s.st ≠ .done) : s.st = .recv := by
  cases hs : s.st with
  | recv => rfl
  | done => exact absurd hs h

/-! ### PUSH -/

theorem pushByte_done {s : State} (b : Byte) (h : s.st = .done) : pushByte b s = raiseProtocolError s := by
  simp [pushByte, h]

theorem pushByte_room {s : State} (b : Byte) (h : s.st = .recv) (hc : s.cnt.toNat < Config.bufBytes) :
    pushByte b s = { memWrite ⟨s.cnt.toNat, hc⟩ b s with cnt := s.cnt + 1 } := by
  unfold pushByte
  rw [h]
  simp only
  rw [dif_pos hc]

theorem pushByte_full {s : State} (b : Byte) (h : s.st = .recv) (hc : s.cnt.toNat = Config.lenMax) :
    pushByte b s = { s with cnt := 512 } := by
  unfold pushByte
  rw [h]
  simp only
  rw [dif_neg (by simp only [Config.lenMax, Config.bufBytes] at *; omega), if_pos hc]

theorem pushByte_saturated {s : State} (b : Byte) (h : s.st = .recv) (hc : Config.cntSat ≤ s.cnt.toNat) :
    pushByte b s = s := by
  unfold pushByte
  rw [h]
  simp only
  rw [dif_neg (by simp only [Config.cntSat, Config.bufBytes] at *; omega),
    if_neg (by simp only [Config.cntSat, Config.lenMax] at *; omega)]

/-- Everything a `PUSH` can do. -/
theorem pushByte_cases (b : Byte) (s : State) :
    (s.st = .done ∧ pushByte b s = raiseProtocolError s) ∨
    (∃ h : s.cnt.toNat < Config.bufBytes, s.st = .recv ∧
      pushByte b s = { memWrite ⟨s.cnt.toNat, h⟩ b s with cnt := s.cnt + 1 }) ∨
    (s.st = .recv ∧ s.cnt.toNat = Config.lenMax ∧ pushByte b s = { s with cnt := 512 }) ∨
    (s.st = .recv ∧ Config.cntSat ≤ s.cnt.toNat ∧ pushByte b s = s) := by
  by_cases hd : s.st = .done
  · exact .inl ⟨hd, pushByte_done b hd⟩
  · have hst : s.st = .recv := recv_of_not_done hd
    by_cases h : s.cnt.toNat < Config.bufBytes
    · exact .inr (.inl ⟨h, hst, pushByte_room b hst h⟩)
    · by_cases h' : s.cnt.toNat = Config.lenMax
      · exact .inr (.inr (.inl ⟨hst, h', pushByte_full b hst h'⟩))
      · have h'' : Config.cntSat ≤ s.cnt.toNat := by
          simp only [Config.bufBytes, Config.lenMax, Config.cntSat] at *; omega
        exact .inr (.inr (.inr ⟨hst, h'', pushByte_saturated b hst h''⟩))

/-- A `PUSH` writes neither the control state nor the result registers, nor the model's own fields. -/
theorem pushByte_frame (b : Byte) (s : State) :
    (pushByte b s).st = s.st ∧ (pushByte b s).res = s.res ∧ (pushByte b s).answer = s.answer ∧
      (pushByte b s).inputs = s.inputs := by
  rcases pushByte_cases b s with ⟨_, h⟩ | ⟨_, _, h⟩ | ⟨_, _, h⟩ | ⟨_, _, h⟩ <;> rw [h] <;> exact ⟨rfl, rfl, rfl, rfl⟩

@[simp] theorem pushByte_st (b : Byte) (s : State) : (pushByte b s).st = s.st := (pushByte_frame b s).1
@[simp] theorem pushByte_res (b : Byte) (s : State) : (pushByte b s).res = s.res := (pushByte_frame b s).2.1
@[simp] theorem pushByte_answer (b : Byte) (s : State) : (pushByte b s).answer = s.answer := (pushByte_frame b s).2.2.1
@[simp] theorem pushByte_inputs (b : Byte) (s : State) : (pushByte b s).inputs = s.inputs := (pushByte_frame b s).2.2.2

/-- In RECV a `PUSH` does not touch `perr`. -/
theorem pushByte_perr {s : State} (b : Byte) (h : s.st = .recv) : (pushByte b s).perr = s.perr := by
  rcases pushByte_cases b s with ⟨h', _⟩ | ⟨_, _, e⟩ | ⟨_, _, e⟩ | ⟨_, _, e⟩
  · rw [h] at h'; cases h'
  all_goals simp [e]

/-- The pending inputs take no part in a `PUSH`. -/
theorem pushByte_withInputs (b : Byte) (s : State) (l : List Input) :
    pushByte b (s.withInputs l) = (pushByte b s).withInputs l := by
  rcases pushByte_cases b s with ⟨h, e⟩ | ⟨hc, h, e⟩ | ⟨h, hc, e⟩ | ⟨h, hc, e⟩
  · rw [e, pushByte_done b (s := s.withInputs l) h]; rfl
  · rw [e, pushByte_room b (s := s.withInputs l) h hc]; rfl
  · rw [e, pushByte_full b (s := s.withInputs l) h hc]; rfl
  · rw [e, pushByte_saturated b (s := s.withInputs l) h hc]

/-- The counter after a `PUSH` that the control state accepts (R12). -/
theorem pushByte_cnt {s : State} (b : Byte) (h : s.st = .recv) (hc : s.cnt.toNat ≤ Config.cntSat) :
    (pushByte b s).cnt.toNat = min (s.cnt.toNat + 1) Config.cntSat := by
  show _ = min (s.cnt.toNat + 1) 512
  have hc' : s.cnt.toNat ≤ 512 := hc
  rcases pushByte_cases b s with ⟨h', _⟩ | ⟨hlt, _, e⟩ | ⟨_, heq, e⟩ | ⟨_, hge, e⟩
  · rw [h] at h'; cases h'
  · have hlt' : s.cnt.toNat < 511 := hlt
    rw [e]
    show (s.cnt + 1).toNat = _
    rw [BitVec.toNat_add]
    have h1 : (1 : BitVec 10).toNat = 1 := rfl
    omega
  · have heq' : s.cnt.toNat = 511 := heq
    rw [e]
    show (512 : BitVec 10).toNat = _
    have h2 : (512 : BitVec 10).toNat = 512 := rfl
    omega
  · have hge' : 512 ≤ s.cnt.toNat := hge
    rw [e]; omega

/-- A `PUSH` keeps the canonical form. -/
theorem pushByte_wf {s : State} (b : Byte) (h : Memory.wf s.mem) : Memory.wf (pushByte b s).mem := by
  rcases pushByte_cases b s with ⟨_, e⟩ | ⟨hc, _, e⟩ | ⟨_, _, e⟩ | ⟨_, _, e⟩ <;> rw [e]
  · exact h
  · exact store_wf b h hc
  · exact h
  · exact h

/-! ### A run of PUSH commands -/

@[simp] theorem pushBytes_nil (s : State) : pushBytes [] s = s := rfl

@[simp] theorem pushBytes_cons (b : Byte) (bs : List Byte) (s : State) :
    pushBytes (b :: bs) s = pushBytes bs (pushByte b s) := rfl

theorem pushBytes_frame (bs : List Byte) (s : State) :
    (pushBytes bs s).st = s.st ∧ (pushBytes bs s).res = s.res ∧ (pushBytes bs s).answer = s.answer ∧
      (pushBytes bs s).inputs = s.inputs := by
  induction bs generalizing s with
  | nil => exact ⟨rfl, rfl, rfl, rfl⟩
  | cons b bs ih => simpa using ih (pushByte b s)

@[simp] theorem pushBytes_st (bs : List Byte) (s : State) : (pushBytes bs s).st = s.st := (pushBytes_frame bs s).1
@[simp] theorem pushBytes_res (bs : List Byte) (s : State) : (pushBytes bs s).res = s.res := (pushBytes_frame bs s).2.1
@[simp] theorem pushBytes_answer (bs : List Byte) (s : State) : (pushBytes bs s).answer = s.answer :=
  (pushBytes_frame bs s).2.2.1
@[simp] theorem pushBytes_inputs (bs : List Byte) (s : State) : (pushBytes bs s).inputs = s.inputs :=
  (pushBytes_frame bs s).2.2.2

theorem pushBytes_perr {s : State} (bs : List Byte) (h : s.st = .recv) : (pushBytes bs s).perr = s.perr := by
  induction bs generalizing s with
  | nil => rfl
  | cons b bs ih => rw [pushBytes_cons, ih (by rw [pushByte_st, h]), pushByte_perr b h]

/-- In DONE every `PUSH` of a run is a protocol error. -/
theorem pushBytes_done {s : State} (bs : List Byte) (h : s.st = .done) :
    pushBytes bs s = s ∨ pushBytes bs s = raiseProtocolError s := by
  induction bs generalizing s with
  | nil => exact .inl rfl
  | cons b bs ih =>
    rw [pushBytes_cons, pushByte_done b h]
    rcases ih (s := raiseProtocolError s) h with e | e <;> rw [e] <;> exact .inr rfl

theorem pushBytes_withInputs (bs : List Byte) (s : State) (l : List Input) :
    pushBytes bs (s.withInputs l) = (pushBytes bs s).withInputs l := by
  induction bs generalizing s with
  | nil => rfl
  | cons b bs ih => rw [pushBytes_cons, pushByte_withInputs, ih]; rfl

/-! ### END -/

theorem closeFrame_done (E : ChecksumEngine) {s : State} (h : s.st = .done) :
    closeFrame E s = .next (raiseProtocolError s) := by
  simp [closeFrame, h]

theorem closeFrame_recv (E : ChecksumEngine) {s : State} {stored : List Byte} (h : s.st = .recv)
    (hb : bufferedBytes s = some stored) :
    closeFrame E s = .next (recordOutcome (decodeBuffered E s.cnt.toNat stored) s) := by
  simp [closeFrame, h, hb]

/-- Everything an `END` that answers a next state can do. -/
theorem closeFrame_next {E : ChecksumEngine} {s t : State} (h : closeFrame E s = .next t) :
    (s.st = .done ∧ t = raiseProtocolError s) ∨
    (∃ stored, s.st = .recv ∧ bufferedBytes s = some stored ∧
      t = recordOutcome (decodeBuffered E s.cnt.toNat stored) s) := by
  unfold closeFrame at h
  split at h
  next hst => exact .inl ⟨hst, (Host.Outcome.next.inj h).symm⟩
  next hst =>
    split at h
    next stored hb => exact .inr ⟨stored, hst, hb, (Host.Outcome.next.inj h).symm⟩
    next => cases h

/-! ### ACK -/

theorem acknowledge_done {s : State} (h : s.st = .done) : acknowledge s = releaseResult s := by simp [acknowledge, h]

theorem acknowledge_recv {s : State} (h : s.st = .recv) : acknowledge s = raiseProtocolError s := by
  simp [acknowledge, h]

/-! ### RDPL -/

/-- The port is shut outside a successfully decoded frame's payload (R70, R152). -/
theorem readPort_shut {s : State} {i : PayloadIndex}
    (h : ¬ (s.st = .done ∧ s.res.status = 0 ∧ i.toNat < s.res.fPlen.toNat)) : readPort s i = some (0, false) :=
  if_neg h

/-- Inside the payload it shows the byte at index `11 + i` (R70). -/
theorem readPort_open {s : State} {i : PayloadIndex} {b : Byte}
    (h : s.st = .done ∧ s.res.status = 0 ∧ i.toNat < s.res.fPlen.toNat)
    (hb : memRead s (Config.payOff + i.toNat) = some b) : readPort s i = some (b, true) := by
  simp [readPort, h, hb]

/-- The port depends on the registers and on what can be read only. -/
theorem readPort_congr {s t : State} (hst : s.st = t.st) (hres : s.res = t.res)
    (hm : ∀ a, memRead s a = memRead t a) (i : PayloadIndex) : readPort s i = readPort t i := by
  simp only [readPort, hst, hres, hm]

/-! ### The decode layer's named functions -/

theorem frameOf_some {raw : List Byte} (h : Config.lenMin ≤ raw.length) : frameOf raw = some ⟨raw, h⟩ := dif_pos h

theorem frameOf_none {raw : List Byte} (h : ¬ Config.lenMin ≤ raw.length) : frameOf raw = none := dif_neg h

/-- From 13 bytes on a check applied by name tests what it tests within `Decode`. -/
theorem checkAnyBytes_long {raw : List Byte} (h : Config.lenMin ≤ raw.length) (check : Frame → Option DecodeError)
    (unstated : Option DecodeError) : checkAnyBytes raw check unstated = check ⟨raw, h⟩ := by
  simp [checkAnyBytes, frameOf_some h]

/-- Below, its answer is the given free value. -/
theorem checkAnyBytes_short {raw : List Byte} (h : ¬ Config.lenMin ≤ raw.length) (check : Frame → Option DecodeError)
    (unstated : Option DecodeError) : checkAnyBytes raw check unstated = unstated := by
  simp [checkAnyBytes, frameOf_none h]

/-- Inside the sequence `raw[i]` is its byte: no free value is read there. -/
theorem rawByte_inside {raw : List Byte} {i : Nat} (h : i < raw.length) : rawByte raw i = raw[i] := by
  show (match raw[i]? with | some b => b | none => Config.missingByte raw i) = _
  rw [List.getElem?_eq_getElem h]

/-- At its fixed offsets, a frame's bytes are those of its sequence: `Decode` reads no free value (R88). -/
theorem fixedByte_frame (f : Frame) : fixedByte f.raw = f.byte := by
  funext i
  have h : 13 ≤ f.raw.length := f.long
  exact rawByte_inside (by have := i.isLt; omega)

/-! ### One step -/

theorem step_run {s : State} {x : Input} {rest : List Input} {i : Instr} (hs : s.inputs = x :: rest)
    (hx : decodeInput x = .ok i) : step s = exec i (s.withInputs rest) := by
  simp [step, hs, hx]

/-- Everything a step that answers a next state can do: execute the instruction its first input decodes to. -/
theorem step_next {s t : State} (h : step s = .next t) :
    ∃ x rest i, s.inputs = x :: rest ∧ decodeInput x = .ok i ∧ exec i (s.withInputs rest) = .next t := by
  unfold step at h
  split at h
  · cases h
  next x rest hs =>
    split at h
    next i hx => exact ⟨x, rest, i, hs, hx, h⟩
    next => cases h

end Sys2Proof.Machine
end

