-- ==== Sys2Proof/Laws/Decoder.lean ====
section
/-! SUPPORT. The field formulas as numbers (R109), and what `Decode` answers, said once. -/

namespace Sys2Proof.Machine

/-! ### Fields as numbers -/

/-- Where the low part stays below `2 ^ k`, "or" with a part shifted up by `k` is a sum (R109). -/
theorem nat_or_shift (a b k : Nat) (h : a < 2 ^ k) : a ||| (b <<< k) = a + 2 ^ k * b := by
  rw [Nat.or_comm, Nat.shiftLeft_eq, Nat.mul_comm b, ← Nat.two_pow_add_eq_or_of_lt h b, Nat.add_comm]

/-- Two bytes low byte first, as a number (R32, R109). -/
theorem le16_toNat (lo hi : Byte) : (le16 lo hi).toNat = lo.toNat + 256 * hi.toNat := by
  have hl := lo.isLt
  have hh := hi.isLt
  simp only [le16, BitVec.toNat_or, BitVec.toNat_shiftLeft, BitVec.toNat_setWidth]
  rw [Nat.mod_eq_of_lt (a := lo.toNat) (by omega), Nat.mod_eq_of_lt (a := hi.toNat) (by omega),
    Nat.mod_eq_of_lt (by rw [Nat.shiftLeft_eq]; omega), nat_or_shift _ _ 8 (by omega)]
  rfl

/-- The header's length field as a number (R52, R109). -/
theorem lengthField_toNat (b1 b2 : Byte) : (lengthField b1 b2).toNat = b1.toNat + 256 * (b2.toNat % 4) := by
  have hl := b1.isLt
  have h3 : b2.toNat &&& 3 = b2.toNat % 4 := Nat.and_two_pow_sub_one_eq_mod b2.toNat 2
  simp only [lengthField, BitVec.toNat_or, BitVec.toNat_shiftLeft, BitVec.toNat_setWidth, BitVec.toNat_and,
    show (0x03 : BitVec 8).toNat = 3 from rfl, h3]
  rw [Nat.mod_eq_of_lt (a := b1.toNat) (by omega), Nat.mod_eq_of_lt (a := b2.toNat % 4) (by omega),
    Nat.mod_eq_of_lt (by rw [Nat.shiftLeft_eq]; omega), nat_or_shift _ _ 8 (by omega)]
  rfl

/-- The version field as a number (R52, R109). -/
theorem versionField_toNat (b : Byte) : (versionField b).toNat = b.toNat / 4 := by
  have hb := b.isLt
  simp only [versionField, BitVec.toNat_setWidth, BitVec.toNat_ushiftRight, Nat.shiftRight_eq_div_pow]
  omega

/-- A kind field as a number (R54, R109). -/
theorem kindField_toNat (b : Byte) : (kindField b).toNat = b.toNat / 32 := by
  have hb := b.isLt
  simp only [kindField, BitVec.toNat_setWidth, BitVec.toNat_ushiftRight, Nat.shiftRight_eq_div_pow]
  omega

/-- An id field as a number: "the even number `2 * raw[k][3:1]`" (R54). -/
theorem idField_toNat (b : Byte) : (idField b).toNat = 2 * (b.toNat / 2 % 8) := by
  have h : ∀ n : Fin 256, (idField (BitVec.ofFin n)).toNat = 2 * (n.val / 2 % 8) := by decide +kernel
  exact h b.toFin

/-- The command type as a number: "its low 5 bits cleared" (R56). -/
theorem commandTypeField_toNat (b : Byte) : (commandTypeField b).toNat = 32 * (b.toNat / 32) := by
  have h : ∀ n : Fin 256, (commandTypeField (BitVec.ofFin n)).toNat = 32 * (n.val / 32) := by decide +kernel
  exact h b.toFin

/-! ### The checks -/

theorem magicFailure_nil : magicFailure [] = some .invalidMagic := rfl

/-- What `CHK1` tests (R81). -/
theorem magicFailure_eq (raw : List Byte) :
    magicFailure raw = if raw.head? = some Config.magic then none else some .invalidMagic := by
  cases raw with
  | nil => rfl
  | cons b rest =>
    simp only [magicFailure, List.head?_cons, Option.some.injEq]
    by_cases h : b = Config.magic
    · rw [if_neg (not_not.mpr h), if_pos h]
    · rw [if_pos h, if_neg h]

/-- `CHK1` raises one failure only. -/
theorem magicFailure_some {raw : List Byte} {e : DecodeError} (h : magicFailure raw = some e) : e = .invalidMagic := by
  rw [magicFailure_eq] at h
  split at h
  · cases h
  · exact (Option.some.inj h).symm

/-! ### Decode -/

theorem decode_badMagic (E : ChecksumEngine) {raw : List Byte} (h : magicFailure raw = some .invalidMagic) :
    decode E raw = .fail .invalidMagic := by
  unfold decode; rw [h]

theorem decode_tooShort (E : ChecksumEngine) {raw : List Byte} (hm : magicFailure raw = none)
    (h : raw.length < Config.lenMin) : decode E raw = .fail .packetTooShort := by
  have hs : tooShortFailure raw.length = some .packetTooShort := if_pos h
  unfold decode
  rw [hm]
  simp only
  split
  next e he => rw [hs] at he; cases he; rfl
  next hn => rw [hs] at hn; cases hn

theorem decode_tooLong (E : ChecksumEngine) {raw : List Byte} (hm : magicFailure raw = none)
    (h : Config.lenMax < raw.length) : decode E raw = .fail .packetTooLong := by
  have hs : tooShortFailure raw.length = none := if_neg (by
    have : 511 < raw.length := h
    show ¬ raw.length < 13
    omega)
  have hl : tooLongFailure raw.length = some .packetTooLong := if_pos h
  unfold decode
  rw [hm]
  simp only
  split
  next e he => rw [hs] at he; cases he
  next =>
    split
    next e he => rw [hl] at he; cases he; rfl
    next hn => rw [hl] at hn; cases hn

/-- On a frame of legal length with the magic byte, `Decode` is its steps 4 to 11 (R72). -/
theorem decode_frame (E : ChecksumEngine) {raw : List Byte} (hm : magicFailure raw = none)
    (hw : Config.lenMin ≤ raw.length ∧ raw.length ≤ Config.lenMax) :
    decode E raw = decodeFrame E ⟨raw, hw.1⟩ := by
  have hs : tooShortFailure raw.length = none := if_neg (by
    have : 13 ≤ raw.length := hw.1
    show ¬ raw.length < 13
    omega)
  have hl : tooLongFailure raw.length = none := if_neg (by
    have : raw.length ≤ 511 := hw.2
    show ¬ 511 < raw.length
    omega)
  unfold decode
  rw [hm]
  simp only
  split
  next e he => rw [hs] at he; cases he
  next =>
    split
    next e he => rw [hl] at he; cases he
    next => rfl

/-- Steps 4 to 11 succeed exactly where none of `CHK4` to `CHK7` fails, with the extracted record (R72, R110). -/
theorem decodeFrame_eq_ok {E : ChecksumEngine} {f : Frame} {p : DecodedPacket} :
    decodeFrame E f = .ok p ↔ laterFailure E f = none ∧ p = extractPacket f := by
  unfold decodeFrame
  split
  next e he => simp [he]
  next he => simp [he, eq_comm]

/-- The priority of `CHK4` to `CHK7` (R80). -/
theorem laterFailure_eq_none {E : ChecksumEngine} {f : Frame} :
    laterFailure E f = none ↔ trailerFailure E f = none ∧ versionFailure f = none ∧ lengthFailure f = none ∧
      headerFailure E f = none := by
  unfold laterFailure
  cases trailerFailure E f <;> cases versionFailure f <;> cases lengthFailure f <;> simp

/-- Whatever `Decode` answers, one of these four cases holds. -/
theorem decode_cases (E : ChecksumEngine) (raw : List Byte) :
    (magicFailure raw = some .invalidMagic ∧ decode E raw = .fail .invalidMagic) ∨
    (magicFailure raw = none ∧ raw.length < Config.lenMin ∧ decode E raw = .fail .packetTooShort) ∨
    (magicFailure raw = none ∧ Config.lenMax < raw.length ∧ decode E raw = .fail .packetTooLong) ∨
    (∃ hw : Config.lenMin ≤ raw.length ∧ raw.length ≤ Config.lenMax,
      magicFailure raw = none ∧ decode E raw = decodeFrame E ⟨raw, hw.1⟩) := by
  cases hm : magicFailure raw with
  | some e =>
    cases magicFailure_some hm
    exact .inl ⟨rfl, decode_badMagic E hm⟩
  | none =>
    by_cases hs : raw.length < Config.lenMin
    · exact .inr (.inl ⟨rfl, hs, decode_tooShort E hm hs⟩)
    · by_cases hl : Config.lenMax < raw.length
      · exact .inr (.inr (.inl ⟨rfl, hl, decode_tooLong E hm hl⟩))
      · have hw : Config.lenMin ≤ raw.length ∧ raw.length ≤ Config.lenMax :=
          ⟨Nat.le_of_not_lt hs, Nat.le_of_not_lt hl⟩
        exact .inr (.inr (.inr ⟨hw, rfl, decode_frame E hm hw⟩))

/-- Within the buffer's capacity `Decode'` is `Decode` (R72). -/
theorem decodeBuffered_eq_decode (E : ChecksumEngine) {n : Nat} (stored : List Byte) (h : n ≤ Config.lenMax) :
    decodeBuffered E n stored = decode E stored := if_pos h

end Sys2Proof.Machine
end

