-- ==== Sys2Proof/Laws/Exec.lean ====
section
/-! SUPPORT. Everything `exec` can do when it answers a next state, said once over all instructions. -/

namespace Sys2Proof.Machine

/-- The instructions that answer a value and write no register: `RDPL`, `Decode`, and the named functions. -/
def answersOnly (i : Instr) : Bool :=
  match i with
  | .nop | .push _ | .endFrame | .ack | .rst | .frame _ | .protocolError => false
  | _ => true

/-- An instruction that answers a value changes nothing but the answer, and any state with the same registers and the
same readable bytes gets the same answer. -/
theorem exec_answersOnly {i : Instr} {s t : State} (hi : answersOnly i = true) (h : exec i s = .next t) :
    ∃ a, t = answerWith a s ∧
      ∀ u : State, s.st = u.st → s.res = u.res → (∀ k, memRead s k = memRead u k) →
        exec i u = .next (answerWith a u) := by
  cases i with
  | nop => cases hi
  | push b => cases hi
  | endFrame => cases hi
  | ack => cases hi
  | rst => cases hi
  | frame b => cases hi
  | protocolError => cases hi
  | rdpl k =>
    simp only [exec, execRdpl] at h ⊢
    split at h
    next d ok hp =>
      refine ⟨_, (Host.Outcome.next.inj h).symm, fun u h1 h2 h3 => ?_⟩
      rw [← readPort_congr h1 h2 h3, hp]
    next => cases h
  | _ raw => exact ⟨_, (Host.Outcome.next.inj h).symm, fun _ _ _ _ => rfl⟩

/-- Whatever instruction answers a next state, one of these eight cases holds. -/
theorem exec_next {i : Instr} {s t : State} (h : exec i s = .next t) :
    (i = .nop ∧ t = s) ∨ (∃ b, i = .push b ∧ t = pushByte b s) ∨
    (i = .endFrame ∧ closeFrame Config.engine s = .next t) ∨ (i = .ack ∧ t = acknowledge s) ∨
    (i = .rst ∧ t = resetRegisters s) ∨
    (∃ bytes, i = .frame bytes ∧ closeFrame Config.engine (pushBytes bytes s) = .next t) ∨
    (i = .protocolError ∧ t = raiseProtocolError s) ∨ (answersOnly i = true ∧ ∃ a, t = answerWith a s) := by
  cases i with
  | nop => exact .inl ⟨rfl, (Host.Outcome.next.inj h).symm⟩
  | push b => exact .inr (.inl ⟨b, rfl, (Host.Outcome.next.inj h).symm⟩)
  | endFrame => exact .inr (.inr (.inl ⟨rfl, h⟩))
  | ack => exact .inr (.inr (.inr (.inl ⟨rfl, (Host.Outcome.next.inj h).symm⟩)))
  | rst => exact .inr (.inr (.inr (.inr (.inl ⟨rfl, (Host.Outcome.next.inj h).symm⟩))))
  | frame b => exact .inr (.inr (.inr (.inr (.inr (.inl ⟨b, rfl, h⟩)))))
  | protocolError => exact .inr (.inr (.inr (.inr (.inr (.inr (.inl ⟨rfl, (Host.Outcome.next.inj h).symm⟩))))))
  | _ => exact .inr (.inr (.inr (.inr (.inr (.inr (.inr ⟨rfl, (exec_answersOnly rfl h).imp (fun _ e => e.1)⟩))))))

/-! ### The command word's fields -/

/-- A command word as a number: `op` in bits 9..8, `data` in bits 7..0 (R45). -/
theorem commandWord_toNat (op : BitVec 2) (data : Byte) : (commandWord op data).toNat = data.toNat + 256 * op.toNat := by
  have hd := data.isLt
  simp only [commandWord, BitVec.toNat_append]
  rw [Nat.or_comm, nat_or_shift _ _ 8 (by omega)]
  rfl

@[simp] theorem opField_commandWord (op : BitVec 2) (data : Byte) : opField (commandWord op data) = op := by
  have hd := data.isLt
  have ho := op.isLt
  apply BitVec.eq_of_toNat_eq
  simp only [opField, BitVec.extractLsb'_toNat, commandWord_toNat, Nat.shiftRight_eq_div_pow]
  omega

@[simp] theorem dataField_commandWord (op : BitVec 2) (data : Byte) : dataField (commandWord op data) = data := by
  have hd := data.isLt
  apply BitVec.eq_of_toNat_eq
  simp only [dataField, BitVec.extractLsb'_toNat, commandWord_toNat, Nat.shiftRight_eq_div_pow]
  omega

theorem decodeCommand_nop (data : Byte) : decodeCommand (commandWord 0b00 data) = .nop := by
  rw [decodeCommand, opField_commandWord, if_pos rfl]

theorem decodeCommand_push (data : Byte) : decodeCommand (commandWord 0b01 data) = .push data := by
  rw [decodeCommand, opField_commandWord, if_neg (by decide), if_pos rfl, dataField_commandWord]

theorem decodeCommand_end (data : Byte) : decodeCommand (commandWord 0b10 data) = .endFrame := by
  rw [decodeCommand, opField_commandWord, if_neg (by decide), if_neg (by decide), if_pos rfl]

theorem decodeCommand_ack (data : Byte) : decodeCommand (commandWord 0b11 data) = .ack := by
  rw [decodeCommand, opField_commandWord, if_neg (by decide), if_neg (by decide), if_neg (by decide)]

/-- A clock edge without reset does what its command word decodes to. -/
theorem decodeInput_clock {w : CommandWord} {i : Instr} (h : decodeCommand w = i) :
    decodeInput (.clock false w) = .ok i := by simp [decodeInput, h]

/-! ### Runs and pending inputs -/

/-- `END` takes no part in the pending inputs. -/
theorem closeFrame_withInputs (E : ChecksumEngine) (s : State) (l : List Input) :
    closeFrame E (s.withInputs l) =
      match closeFrame E s with
      | .next t => .next (t.withInputs l)
      | .fault f => .fault f
      | .refused r => .refused r := by
  have hb : bufferedBytes (s.withInputs l) = bufferedBytes s := bufferedBytes_congr rfl rfl
  unfold closeFrame
  rw [withInputs_st]
  cases s.st with
  | done => rfl
  | recv =>
    simp only
    rw [hb]
    cases bufferedBytes s <;> rfl

/-- A run whose first step answers a next state goes on from there. -/
theorem run_succ_next {k : Nat} {s t : State} (h : step s = .next t) :
    Sys2Proof.core.run (k + 1) s = Sys2Proof.core.run k t := by
  have h' : Sys2Proof.core.step s = .next t := h
  simp only [Host.Core.run, h']

/-- A run of one step is that step. -/
theorem run_one (s : State) : Sys2Proof.core.run 1 s = step s := by
  have h : Sys2Proof.core.step s = step s := rfl
  simp only [Host.Core.run, h]
  cases step s <;> rfl

end Sys2Proof.Machine
end

