-- ==== Sys2Proof/Laws/Fields.lean ====
section
/-! SUPPORT. The bytes, checks and fields of a frame as numbers (R109), in the terms the statements use. -/

namespace Sys2Proof.Machine

/-- A byte inside the sequence, as a number. -/
theorem byteAt_eq {raw : List Byte} {i : Nat} (h : i < raw.length) : (raw[i]).toNat = byteAt raw i := by
  unfold byteAt
  rw [List.getD_eq_getElem?_getD, List.getElem?_eq_getElem h]
  rfl

theorem byteAt_lt (raw : List Byte) (i : Nat) : byteAt raw i < 256 := BitVec.isLt _

/-- A bit vector is determined by its number. -/
theorem eq_ofNat_of_toNat {w n : Nat} {x : BitVec w} (h : x.toNat = n) : x = BitVec.ofNat w n := by
  subst h
  rw [BitVec.ofNat_toNat, BitVec.setWidth_eq]

section

variable {raw : List Byte} (h1 : Config.lenMin ≤ raw.length)
include h1

/-- A frame's byte at a fixed offset, as a number. -/
theorem frameByte_toNat (i : Fin 11) : (Frame.byte ⟨raw, h1⟩ i).toNat = byteAt raw i := byteAt_eq _

/-- The stored trailer as a number (R58, R107). -/
theorem frameTrailer_toNat :
    (le16 (Frame.trailerLow ⟨raw, h1⟩) (Frame.trailerHigh ⟨raw, h1⟩)).toNat = storedTrailer raw := by
  have h13 : 13 ≤ raw.length := h1
  refine (le16_toNat _ _).trans ?_
  have e1 : (Frame.trailerLow ⟨raw, h1⟩).toNat = byteAt raw (raw.length - 2) := byteAt_eq _
  have e2 : (Frame.trailerHigh ⟨raw, h1⟩).toNat = byteAt raw (raw.length - 1) := byteAt_eq _
  rw [e1, e2]
  rfl

/-- The header's length field as a number (R95). -/
theorem frameLength_toNat :
    (lengthField (Frame.byte ⟨raw, h1⟩ 1) (Frame.byte ⟨raw, h1⟩ 2)).toNat =
      byteAt raw 1 + 256 * (byteAt raw 2 % 4) :=
  (lengthField_toNat _ _).trans (by rw [frameByte_toNat, frameByte_toNat]; rfl)

/-- The header's version as a number (R96). -/
theorem frameVersion_toNat : (versionField (Frame.byte ⟨raw, h1⟩ 2)).toNat = byteAt raw 2 / 4 :=
  (versionField_toNat _).trans (by rw [frameByte_toNat]; rfl)

/-- `CHK4` as a numeric test (R84). -/
theorem trailerFailure_eq (E : ChecksumEngine) :
    trailerFailure E ⟨raw, h1⟩ =
      if storedTrailer raw ≠ (E.ck16 (raw.take (raw.length - 2))).toNat then
        some (.trailerChecksumMismatch (E.ck16 (raw.take (raw.length - 2))) (BitVec.ofNat 16 (storedTrailer raw)))
      else none := by
  have e := frameTrailer_toNat h1
  have ho := eq_ofNat_of_toNat e
  unfold trailerFailure
  show (if le16 (Frame.trailerLow ⟨raw, h1⟩) (Frame.trailerHigh ⟨raw, h1⟩) ≠ E.ck16 (raw.take (raw.length - 2)) then
    _ else _) = _
  by_cases h : le16 (Frame.trailerLow ⟨raw, h1⟩) (Frame.trailerHigh ⟨raw, h1⟩) = E.ck16 (raw.take (raw.length - 2))
  · rw [if_neg (not_not.mpr h), if_neg (not_not.mpr (by rw [← e, h]))]
  · rw [if_pos h, if_pos (fun hn => h (BitVec.eq_of_toNat_eq (e.trans hn))), ← ho]
    rfl

/-- `CHK5` as a numeric test (R85). -/
theorem versionFailure_eq :
    versionFailure ⟨raw, h1⟩ =
      if byteAt raw 2 / 4 ≠ 1 then some (.unsupportedVersion (BitVec.ofNat 6 (byteAt raw 2 / 4))) else none := by
  have e := frameVersion_toNat h1
  have ho := eq_ofNat_of_toNat e
  show (if versionField (Frame.byte ⟨raw, h1⟩ 2) ≠ 1 then
    some (DecodeError.unsupportedVersion (versionField (Frame.byte ⟨raw, h1⟩ 2))) else none) = _
  by_cases h : versionField (Frame.byte ⟨raw, h1⟩ 2) = 1
  · rw [if_neg (not_not.mpr h), if_neg (not_not.mpr (by rw [← e, h]; rfl))]
  · have hn : byteAt raw 2 / 4 ≠ 1 := fun hn => h (BitVec.eq_of_toNat_eq (e.trans hn))
    rw [if_pos h, if_pos hn, ← ho]

/-- `CHK6` as a numeric test (R86). -/
theorem lengthFailure_eq :
    lengthFailure ⟨raw, h1⟩ =
      if byteAt raw 1 + 256 * (byteAt raw 2 % 4) ≠ raw.length then
        some (.lengthMismatch (BitVec.ofNat 10 (byteAt raw 1 + 256 * (byteAt raw 2 % 4))) raw.length)
      else none := by
  have e := frameLength_toNat h1
  have ho := eq_ofNat_of_toNat e
  show (if (lengthField (Frame.byte ⟨raw, h1⟩ 1) (Frame.byte ⟨raw, h1⟩ 2)).toNat ≠ raw.length then
    some (DecodeError.lengthMismatch (lengthField (Frame.byte ⟨raw, h1⟩ 1) (Frame.byte ⟨raw, h1⟩ 2)) raw.length)
    else none) = _
  rw [← ho, e]

/-- `CHK7` as a numeric test (R87). -/
theorem headerFailure_eq (E : ChecksumEngine) :
    headerFailure E ⟨raw, h1⟩ =
      if (E.ck8 (raw.take 3)).toNat ≠ byteAt raw 3 then
        some (.headerChecksumMismatch (E.ck8 (raw.take 3)) (BitVec.ofNat 8 (byteAt raw 3)))
      else none := by
  have e : (Frame.byte ⟨raw, h1⟩ 3).toNat = byteAt raw 3 := frameByte_toNat h1 3
  have ho := eq_ofNat_of_toNat e
  show (if E.ck8 (raw.take 3) ≠ Frame.byte ⟨raw, h1⟩ 3 then
    some (DecodeError.headerChecksumMismatch (E.ck8 (raw.take 3)) (Frame.byte ⟨raw, h1⟩ 3)) else none) = _
  by_cases h : E.ck8 (raw.take 3) = Frame.byte ⟨raw, h1⟩ 3
  · rw [if_neg (not_not.mpr h), if_neg (not_not.mpr (by rw [← e, h]))]
  · rw [if_pos h, if_pos (fun hn => h (BitVec.eq_of_toNat_eq (hn.trans e.symm))), ← ho]

/-- The success record as numbers (R95 to R108). -/
theorem extractPacket_eq :
    extractPacket ⟨raw, h1⟩ =
      ⟨BitVec.ofNat 10 (byteAt raw 1 + 256 * (byteAt raw 2 % 4)), BitVec.ofNat 6 (byteAt raw 2 / 4),
        BitVec.ofNat 8 (byteAt raw 3), BitVec.ofNat 3 (byteAt raw 4 / 32), BitVec.ofNat 4 (2 * (byteAt raw 4 / 2 % 8)),
        BitVec.ofNat 3 (byteAt raw 5 / 32), BitVec.ofNat 4 (2 * (byteAt raw 5 / 2 % 8)),
        BitVec.ofNat 16 (byteAt raw 6 + 256 * byteAt raw 7), BitVec.ofNat 8 (32 * (byteAt raw 8 / 32)),
        BitVec.ofNat 8 (byteAt raw 9), BitVec.ofNat 8 (byteAt raw 10), (raw.drop 11).take (raw.length - 13),
        BitVec.ofNat 16 (storedTrailer raw)⟩ := by
  have b := frameByte_toNat h1
  unfold extractPacket
  congr 1
  · exact eq_ofNat_of_toNat (frameLength_toNat h1)
  · exact eq_ofNat_of_toNat (frameVersion_toNat h1)
  · exact eq_ofNat_of_toNat (b 3)
  · exact eq_ofNat_of_toNat ((kindField_toNat _).trans (by rw [b]; rfl))
  · exact eq_ofNat_of_toNat ((idField_toNat _).trans (by rw [b]; rfl))
  · exact eq_ofNat_of_toNat ((kindField_toNat _).trans (by rw [b]; rfl))
  · exact eq_ofNat_of_toNat ((idField_toNat _).trans (by rw [b]; rfl))
  · exact eq_ofNat_of_toNat ((le16_toNat _ _).trans (by rw [b, b]; rfl))
  · exact eq_ofNat_of_toNat ((commandTypeField_toNat _).trans (by rw [b]; rfl))
  · exact eq_ofNat_of_toNat (b 9)
  · exact eq_ofNat_of_toNat (b 10)
  · show (raw.take (raw.length - 2)).drop 11 = _
    rw [List.drop_take]
    congr 1
  · exact eq_ofNat_of_toNat (frameTrailer_toNat h1)

end

/-- A byte at a fixed offset of any sequence that has it, as a number. -/
theorem fixedByte_toNat {raw : List Byte} {i : Fin 11} (h : i.val < raw.length) :
    (fixedByte raw i).toNat = byteAt raw i := by
  rw [fixedByte, rawByte_inside h, byteAt_eq]

/-- The last two bytes of any sequence that has two, as a number (R107). -/
theorem rawTrailer_toNat {raw : List Byte} (h : 2 ≤ raw.length) :
    (extractTrailer (rawByte raw (raw.length - 2)) (rawByte raw (raw.length - 1))).toNat = storedTrailer raw := by
  rw [show ((raw.length : Int) - 2) = ((raw.length - 2 : Nat) : Int) by omega,
    show ((raw.length : Int) - 1) = ((raw.length - 1 : Nat) : Int) by omega,
    rawByte_inside (by omega), rawByte_inside (by omega)]
  refine (le16_toNat _ _).trans ?_
  rw [byteAt_eq, byteAt_eq]
  rfl

end Sys2Proof.Machine
end

