-- ==== Sys2Proof/Laws/Push.lean ====
section
/-! SUPPORT. What a run of `PUSH` commands does to a receiving block, said once: the frame received so far is in the
buffer and in the counter, up to the buffer's capacity. -/

namespace Sys2Proof.Machine

/-- The block has received the bytes `pre` and nothing else (R12, R13): it is in RECV, `cnt` is their number saturated at
512, and the first 511 of them stand in the buffer. -/
structure Holds (pre : List Byte) (s : State) : Prop where
  /-- R11. -/
  recv : s.st = .recv
  /-- R12. -/
  count : s.cnt.toNat = min pre.length 512
  /-- R13. -/
  bytes : ∀ i, i < min pre.length 511 → Memory.lookup s.mem i = pre[i]?

/-- A block in RECV with `cnt = 0` has received nothing. -/
theorem holds_nil {s : State} (hst : s.st = .recv) (hc : s.cnt = 0) : Holds [] s :=
  ⟨hst, by rw [hc]; rfl, fun i hi => by simp at hi⟩

/-- A `PUSH` is one more byte received (R67). -/
theorem holds_pushByte {pre : List Byte} {s : State} (h : Holds pre s) (b : Byte) :
    Holds (pre ++ [b]) (pushByte b s) := by
  have hc := h.count
  refine ⟨by rw [pushByte_st, h.recv], ?_, fun i hi => ?_⟩
  · rw [pushByte_cnt b h.recv (by show _ ≤ 512; omega), List.length_append, List.length_singleton]
    show min _ 512 = _
    omega
  · rw [List.length_append, List.length_singleton] at hi
    rcases pushByte_cases b s with ⟨h', _⟩ | ⟨hlt, _, e⟩ | ⟨_, heq, e⟩ | ⟨_, hge, e⟩
    · rw [h.recv] at h'; cases h'
    · have hlt' : s.cnt.toNat < 511 := hlt
      rw [e]
      show Memory.lookup (Memory.store s.mem s.cnt.toNat b) i = _
      by_cases hi' : i = s.cnt.toNat
      · subst hi'
        rw [lookup_store_same, show s.cnt.toNat = pre.length by omega, List.getElem?_concat_length]
      · rw [lookup_store_other _ _ hi', h.bytes i (by omega), List.getElem?_append_left (by omega)]
    · have heq' : s.cnt.toNat = 511 := heq
      rw [e]
      show Memory.lookup s.mem i = _
      rw [h.bytes i (by omega), List.getElem?_append_left (by omega)]
    · have hge' : 512 ≤ s.cnt.toNat := hge
      rw [e, h.bytes i (by omega), List.getElem?_append_left (by omega)]

/-- A run of `PUSH` commands is that many more bytes received, in order (R37). -/
theorem holds_pushBytes {pre : List Byte} {s : State} (h : Holds pre s) (bs : List Byte) :
    Holds (pre ++ bs) (pushBytes bs s) := by
  induction bs generalizing pre s with
  | nil => rwa [List.append_nil]
  | cons b bs ih =>
    have := ih (holds_pushByte h b)
    rwa [List.append_assoc] at this

/-- What `END` will decode: the received bytes, the first 511 of them (R36, R37). -/
theorem holds_bufferedBytes {pre : List Byte} {s : State} (h : Holds pre s) : bufferedBytes s = some (pre.take 511) := by
  have hw : s.written = min pre.length 511 := by
    unfold State.written
    rw [h.count]
    show min _ 511 = _
    omega
  refine bufferedBytes_eq (by rw [hw, List.length_take]; omega) (fun i hi => ?_)
  rw [List.length_take] at hi
  rw [memRead_of_lt (by omega), h.bytes i (by omega), List.getElem?_take, if_pos (by omega)]

/-- What can be read of a block that received `pre`. -/
theorem holds_memRead {pre : List Byte} {s : State} (h : Holds pre s) (a : Nat) : memRead s a = (pre.take 511)[a]? := by
  obtain ⟨hl, hr⟩ := bufferedBytes_some (holds_bufferedBytes h)
  by_cases ha : a < s.written
  · exact hr a ha
  · rw [memRead_of_ge (by omega), List.getElem?_eq_none (by omega)]

/-- `Decode'` of what is kept of a frame is `Decode` of the frame, whatever its length (R72, R73): the dropped bytes and
the lost count are not missed. -/
theorem decodeBuffered_take (E : ChecksumEngine) (raw : List Byte) :
    decodeBuffered E (min raw.length 512) (raw.take 511) = decode E raw := by
  by_cases h : raw.length ≤ 511
  · rw [decodeBuffered_eq_decode _ _ (by show _ ≤ 511; omega), List.take_of_length_le (by omega)]
  · have hm : magicFailure (raw.take 511) = magicFailure raw := by
      rw [magicFailure_eq, magicFailure_eq, List.head?_take, if_neg (show ¬ (511 : Nat) = 0 by decide)]
    unfold decodeBuffered
    rw [if_neg (by show ¬ _ ≤ 511; omega), hm]
    cases hmm : magicFailure raw with
    | some e => cases magicFailure_some hmm; exact (decode_badMagic E hmm).symm
    | none => exact (decode_tooLong E hmm (by show 511 < _; omega)).symm

end Sys2Proof.Machine
end

