-- ==== Sys2Proof/Tests/Slice0.lean ====
section
/-! SUPPORT. The model's own tests: command words and inputs written out from the spec's encodings, the smoke tests of
WellFormed, the vectors of 95_test_vectors.md, and for each statement with hypotheses a state that meets them. Expected
values come from the spec (the vector's name stands in the comment) or from the formula of the cited rule by hand. -/

namespace Sys2Proof.Machine

/-! ### Frames of 95_test_vectors.md -/

/-- S1, the source's frame. -/
def frameS1 : List Byte := [0x55, 0x0D, 0x04, 0x33, 0x2A, 0x28, 0x35, 0x12, 0x40, 0x00, 0x00, 0x2A, 0xE4]

/-- X1, extraction corners. -/
def frameX1 : List Byte := [0x55, 0x0D, 0x04, 0x33, 0xFF, 0x11, 0xFF, 0x00, 0xFF, 0xFF, 0xFF, 0xCD, 0xCF]

/-- X3, extraction corners. -/
def frameX3 : List Byte := [0x55, 0x0D, 0x04, 0x33, 0x10, 0x01, 0x34, 0x12, 0x60, 0x03, 0x04, 0x17, 0x1F]

/-- X4: S1 with unassigned bits set. -/
def frameX4 : List Byte := [0x55, 0x0D, 0x04, 0x33, 0x3B, 0x28, 0x35, 0x12, 0x5F, 0x00, 0x00, 0x64, 0x01]

/-- S2, the source's 14-byte scenario. -/
def frameS2 : List Byte := [0x55, 0x0D, 0x04, 0x33, 0x2A, 0x28, 0x35, 0x12, 0x40, 0x00, 0x00, 0xAA, 0xEC, 0x84]

/-- P16, a frame with three payload bytes. -/
def frameP16 : List Byte :=
  [0x55, 0x10, 0x04, 0x56, 0x2A, 0x28, 0x35, 0x12, 0x40, 0x01, 0x02, 0xDE, 0xAD, 0xBE, 0x06, 0x50]

/-! ### Decoding: command words, bit by bit from the format CW (R45, R46) -/

theorem test_decode_nop : decodeTableWord 16 0b0000000000 = some .nop := by decide
theorem test_decode_nop_data_ignored : decodeTableWord 16 0b0011111111 = some .nop := by decide
theorem test_decode_push_55 : decodeTableWord 16 0b0101010101 = some (.push 0x55) := by decide
theorem test_decode_push_ff : decodeTableWord 16 0b0111111111 = some (.push 0xFF) := by decide
theorem test_decode_end : decodeTableWord 16 0b1000000000 = some .endFrame := by decide
theorem test_decode_end_data_ignored : decodeTableWord 16 0b1011111111 = some .endFrame := by decide
theorem test_decode_ack : decodeTableWord 16 0b1100000000 = some .ack := by decide
theorem test_decode_ack_data_ignored : decodeTableWord 16 0b1110100101 = some .ack := by decide

/-- The port has 10 bits: a larger number is no command word. -/
theorem test_decode_eleven_bits_refused : decodeTableWord 16 0b10000000000 = none := by decide

/-- `rst = 1` overrides `cmd` (R46, R74). -/
theorem test_decode_rst : decodeInput (.clock true 0b0101010101) = .ok .rst := by decide

theorem test_decode_rdpl : decodeInput (.readPort 511) = .ok (.rdpl 511) := by decide

/-- `FRAME "550D 0433"`, and lower case (R60). -/
theorem test_decode_frame :
    decodeInput (.assembly ['5', '5', '0', 'D', ' ', '0', '4', '3', 'f']) = .ok (.frame [0x55, 0x0D, 0x04, 0x3F]) := by
  decide

theorem test_decode_frame_empty : decodeInput (.assembly []) = .ok (.frame []) := by decide

theorem test_decode_frame_odd_refused : decodeInput (.assembly ['5', ' ']) = .error .malformedHexInput := by decide

/-- Only the space 0x20 is stripped: a tab is refused (R60, C8). -/
theorem test_decode_frame_tab_refused :
    decodeInput (.assembly ['5', '5', '\t', '0', '4']) = .error .malformedHexInput := by decide

theorem test_decode_frame_letter_refused : decodeInput (.assembly ['5', 'G']) = .error .malformedHexInput := by decide

theorem test_decode_protocolError : decodeInput .protocolErrorEvent = .ok .protocolError := by decide

/-- The header recogniser's bits of the row `DF`, 0x00040055 under 0x00FE00FF (R59), as the table's number: a frame of
the least legal length, its other bytes zero. -/
theorem test_decode_df_table_word :
    decodeTableWord 32 0x00040055 = some (.df [0x55, 0, 4, 0, 0, 0, 0, 0, 0, 0, 0, 0, 0]) := by decide

theorem test_decode_df : decodeInput (.frame frameS1) = .ok (.df frameS1) := by decide

/-- The decode layer's functions have no bit pattern; their names select them (one conjunct per constructor). -/
theorem test_decode_checks :
    decodeInput (.call .chk1 [1]) = .ok (.chk1 [1]) ∧ decodeInput (.call .chk2 [2]) = .ok (.chk2 [2]) ∧
    decodeInput (.call .chk3 [3]) = .ok (.chk3 [3]) ∧ decodeInput (.call .chk4 [4]) = .ok (.chk4 [4]) ∧
    decodeInput (.call .chk5 [5]) = .ok (.chk5 [5]) ∧ decodeInput (.call .chk6 [6]) = .ok (.chk6 [6]) ∧
    decodeInput (.call .chk7 [7]) = .ok (.chk7 [7]) := by decide

theorem test_decode_extractions :
    decodeInput (.call .xlen [1]) = .ok (.xlen [1]) ∧ decodeInput (.call .xver [2]) = .ok (.xver [2]) ∧
    decodeInput (.call .xhck [3]) = .ok (.xhck [3]) ∧ decodeInput (.call .xskind [4]) = .ok (.xskind [4]) ∧
    decodeInput (.call .xsid [5]) = .ok (.xsid [5]) ∧ decodeInput (.call .xtkind [6]) = .ok (.xtkind [6]) ∧
    decodeInput (.call .xtid [7]) = .ok (.xtid [7]) ∧ decodeInput (.call .xseq [8]) = .ok (.xseq [8]) ∧
    decodeInput (.call .xctype [9]) = .ok (.xctype [9]) ∧ decodeInput (.call .xcset [10]) = .ok (.xcset [10]) ∧
    decodeInput (.call .xcid [11]) = .ok (.xcid [11]) ∧ decodeInput (.call .xpay [12]) = .ok (.xpay [12]) ∧
    decodeInput (.call .xtrl [13]) = .ok (.xtrl [13]) := by decide

theorem test_decode_checksums :
    decodeInput (.call .ck8 [1]) = .ok (.ck8 [1]) ∧ decodeInput (.call .ck16 [2]) = .ok (.ck16 [2]) := by decide

/-- The canonical encodings of R47. -/
theorem test_encode_commands :
    encode .nop = .clock false 0x000 ∧ encode (.push 0x55) = .clock false 0x155 ∧
      encode .endFrame = .clock false 0x200 ∧ encode .ack = .clock false 0x300 := by decide

/-! ### WellFormed: one ill-formed term for each check -/

/-- Twelve bytes, one too few (R82). -/
def shortBytes : List Byte := List.replicate 12 0x55

/-- 512 bytes, one too many (R83). -/
def longBytes : List Byte := List.replicate 512 0x55

theorem shortBytes_outside : ¬ InWindow shortBytes := by decide
theorem longBytes_outside : ¬ InWindow longBytes := by decide +kernel

theorem test_illFormed_chk4 : ¬ WellFormed (.chk4 shortBytes) := shortBytes_outside
theorem test_illFormed_chk5 : ¬ WellFormed (.chk5 longBytes) := longBytes_outside
theorem test_illFormed_chk6 : ¬ WellFormed (.chk6 shortBytes) := shortBytes_outside
theorem test_illFormed_chk7 : ¬ WellFormed (.chk7 longBytes) := longBytes_outside
theorem test_illFormed_xlen : ¬ WellFormed (.xlen shortBytes) := shortBytes_outside
theorem test_illFormed_xver : ¬ WellFormed (.xver longBytes) := longBytes_outside
theorem test_illFormed_xhck : ¬ WellFormed (.xhck shortBytes) := shortBytes_outside
theorem test_illFormed_xskind : ¬ WellFormed (.xskind longBytes) := longBytes_outside
theorem test_illFormed_xsid : ¬ WellFormed (.xsid shortBytes) := shortBytes_outside
theorem test_illFormed_xtkind : ¬ WellFormed (.xtkind longBytes) := longBytes_outside
theorem test_illFormed_xtid : ¬ WellFormed (.xtid shortBytes) := shortBytes_outside
theorem test_illFormed_xseq : ¬ WellFormed (.xseq longBytes) := longBytes_outside
theorem test_illFormed_xctype : ¬ WellFormed (.xctype shortBytes) := shortBytes_outside
theorem test_illFormed_xcset : ¬ WellFormed (.xcset longBytes) := longBytes_outside
theorem test_illFormed_xcid : ¬ WellFormed (.xcid shortBytes) := shortBytes_outside
theorem test_illFormed_xpay : ¬ WellFormed (.xpay longBytes) := longBytes_outside
theorem test_illFormed_xtrl : ¬ WellFormed (.xtrl []) := (by decide : ¬ InWindow [])
theorem test_wellFormed_s1 : WellFormed (.xtrl frameS1) ∧ WellFormed (.chk1 []) :=
  ⟨(by decide : InWindow frameS1), trivial⟩

/-! ### The candidate checksums (R119, R120, R122), and `Decode` under them -/

theorem test_candidate_check_values :
    candidateCk8 [] = 0x77 ∧ candidateCk8 [0x00] = 0x7B ∧ candidateCk8 [1, 2, 3] = 0x4D ∧
      candidateCk8 [3, 2, 1] = 0xBE ∧ candidateCk8 [0x55, 0x10, 0x04] = 0x56 ∧
      candidateCk16 (frameS1.take 11) = 0xE42A := by decide +kernel

/-- X1, X3 and P16. -/
theorem test_decode_success_vectors :
    decode candidateEngine frameX1 = .ok ⟨13, 1, 0x33, 7, 14, 0, 0, 255, 224, 255, 255, [], 0xCFCD⟩ ∧
    decode candidateEngine frameX3 = .ok ⟨13, 1, 0x33, 0, 0, 0, 0, 4660, 96, 3, 4, [], 0x1F17⟩ ∧
    decode candidateEngine frameP16 = .ok
      ⟨16, 1, 0x56, 1, 10, 1, 8, 4661, 64, 1, 2, [0xDE, 0xAD, 0xBE], 0x5006⟩ := by decide +kernel

/-- V1, V3, V5 (magic before length), V7 and V8 (C3). -/
theorem test_decode_window_vectors :
    decode candidateEngine [] = .fail .invalidMagic ∧ decode candidateEngine [0x55] = .fail .packetTooShort ∧
    decode candidateEngine (0xAA :: List.replicate 11 0) = .fail .invalidMagic ∧
    decode candidateEngine (0x55 :: List.replicate 511 0) = .fail .packetTooLong ∧
    decode candidateEngine (0x54 :: List.replicate 511 0) = .fail .invalidMagic := by decide +kernel

/-- V18 (the trailer is low byte first), V13 (version before length and header checksum), S2, V12 (bit 1 of `raw[2]` is
bit 9 of the length), V15. -/
theorem test_decode_failure_vectors :
    decode candidateEngine (frameS1.take 11 ++ [0xE4, 0x2A]) = .fail (.trailerChecksumMismatch 0xE42A 0x2AE4) ∧
    decode candidateEngine [0x55, 0x63, 0x08, 0x17, 0x2A, 0x28, 0x35, 0x12, 0x40, 0x00, 0x00, 0x1E, 0x78] =
      .fail (.unsupportedVersion 2) ∧
    decode candidateEngine frameS2 = .fail (.lengthMismatch 13 14) ∧
    decode candidateEngine [0x55, 0x0D, 0x06, 0x8F, 0x2A, 0x28, 0x35, 0x12, 0x40, 0x00, 0x00, 0xD8, 0x62] =
      .fail (.lengthMismatch 525 13) ∧
    decode candidateEngine [0x55, 0x0D, 0x04, 0x32, 0x2A, 0x28, 0x35, 0x12, 0x40, 0x00, 0x00, 0x95, 0x65] =
      .fail (.headerChecksumMismatch 0x33 0x32) := by decide +kernel

/-! ### Small states -/

/-- A receiving block with a given counter. -/
def recvAt (c : BitVec 10) : State := { State.reset with cnt := c }

/-- A block with a standing failure: code 6, values 13 and 14, `cnt = 14` (K10). -/
def failedState : State :=
  { State.reset with
    st := .done, cnt := 14, res := { Results.cleared with status := 6, infoA := 13, infoB := 14 } }

/-- A block with P16's result standing, as far as the payload port sees it. -/
def payloadState : State :=
  { State.reset with
    st := .done, cnt := 16, mem := [(11, 0xDE), (12, 0xAD), (13, 0xBE)],
    res := { Results.cleared with fPlen := 3 } }

/-! ### The port commands (K1 to K13 and the examples of R65 to R71) -/

/-- K1. -/
theorem test_nop : exec .nop failedState = .next failedState := rfl

/-- K4, K5, K6: the last index, the dropped byte, saturation. -/
theorem test_push_at_the_end :
    exec (.push 0x77) (recvAt 510) = .next { recvAt 511 with mem := [(510, 0x77)] } ∧
    exec (.push 0x77) (recvAt 511) = .next (recvAt 512) ∧ exec (.push 0x77) (recvAt 512) = .next (recvAt 512) :=
  ⟨rfl, rfl, rfl⟩

/-- K3, and a byte left over from an earlier frame is overwritten in place. -/
theorem test_push_first :
    exec (.push 0x55) { State.reset with mem := [(0, 0xAA), (1, 0xBB)] } =
      .next { recvAt 1 with mem := [(0, 0x55), (1, 0xBB)] } := rfl

/-- PR3: the empty frame is InvalidMagic, and a lone magic byte is PacketTooShort. -/
theorem test_end_short_frames :
    exec .endFrame (recvAt 0) = .next { recvAt 0 with st := .done, res := { Results.cleared with status := 1 } } ∧
    exec .endFrame { recvAt 1 with mem := [(0, 0x55)] } =
      .next { recvAt 1 with mem := [(0, 0x55)], st := .done, res := { Results.cleared with status := 2 } } :=
  ⟨rfl, rfl⟩

/-- K9, and R36: a byte that no `PUSH` wrote is never a zero. -/
theorem test_end_done_and_unwritten :
    exec .endFrame failedState = .next { failedState with perr := true } ∧
      exec .endFrame (recvAt 1) = .fault .unwrittenBufferRead := ⟨rfl, rfl⟩

/-- K10 and K7. -/
theorem test_ack :
    exec .ack failedState = .next State.reset ∧
      exec .ack (recvAt 5) = .next { recvAt 5 with perr := true } := ⟨rfl, rfl⟩

/-- K11: `perr` survives `ACK`; R65's example: `RST` clears it. -/
theorem test_perr_ack_rst :
    exec .ack { failedState with perr := true } = .next { State.reset with perr := true } ∧
      exec .rst { failedState with perr := true } = .next State.reset := ⟨rfl, rfl⟩

/-- P16: `RDPL` 0, 2, 3 and 511. -/
theorem test_rdpl :
    exec (.rdpl 0) payloadState = .next { payloadState with answer := .port 0xDE true } ∧
    exec (.rdpl 2) payloadState = .next { payloadState with answer := .port 0xBE true } ∧
    exec (.rdpl 3) payloadState = .next { payloadState with answer := .port 0 false } ∧
    exec (.rdpl 511) payloadState = .next { payloadState with answer := .port 0 false } := ⟨rfl, rfl, rfl, rfl⟩

/-- `FRAME "54"` and `FRAME ""` (R60: `END` alone). -/
theorem test_frame :
    exec (.frame [0x54]) State.reset =
      .next { recvAt 1 with mem := [(0, 0x54)], st := .done, res := { Results.cleared with status := 1 } } ∧
    exec (.frame []) State.reset =
      .next { State.reset with st := .done, res := { Results.cleared with status := 1 } } := ⟨rfl, rfl⟩

theorem test_protocolError : exec .protocolError failedState = .next { failedState with perr := true } := rfl

/-! ### The decode layer's functions -/

theorem test_df : exec (.df [0x55]) State.reset =
    .next { State.reset with answer := .outcome (.fail .packetTooShort) } := rfl

/-- V5b: all eight bits of the first byte are compared; the empty sequence fails. -/
theorem test_chk1 :
    exec (.chk1 [0xD5]) State.reset = .next { State.reset with answer := .raised .invalidMagic } ∧
    exec (.chk1 []) State.reset = .next { State.reset with answer := .raised .invalidMagic } ∧
    exec (.chk1 [0x55]) State.reset = .next { State.reset with answer := .passed } := ⟨rfl, rfl, rfl⟩

theorem test_chk2 :
    exec (.chk2 shortBytes) State.reset = .next { State.reset with answer := .raised .packetTooShort } ∧
    exec (.chk2 frameS1) State.reset = .next { State.reset with answer := .passed } := ⟨rfl, rfl⟩

theorem test_chk3 :
    exec (.chk3 longBytes) State.reset = .next { State.reset with answer := .raised .packetTooLong } ∧
    exec (.chk3 frameS1) State.reset = .next { State.reset with answer := .passed } := by
  refine ⟨?_, rfl⟩
  show Host.Outcome.next (answerWith (checkAnswer (tooLongFailure longBytes.length)) State.reset) = _
  rw [show longBytes.length = 512 from List.length_replicate]
  rfl

/-- `CHK4` and `CHK7` answer under the machine's own open parameters; which answer, no closed proof can say. What they
compare is shown by test_decode_failure_vectors. -/
theorem test_chk4 : ∃ a, exec (.chk4 frameS1) State.reset = .next { State.reset with answer := a } := ⟨_, rfl⟩
theorem test_chk7 : ∃ a, exec (.chk7 frameS1) State.reset = .next { State.reset with answer := a } := ⟨_, rfl⟩

/-- S1's version, and V11's 63. -/
theorem test_chk5 :
    exec (.chk5 frameS1) State.reset = .next { State.reset with answer := .passed } ∧
    exec (.chk5 [0x55, 0x0D, 0xFC, 0x85, 0x2A, 0x28, 0x35, 0x12, 0x40, 0x00, 0x00, 0x22, 0x8A]) State.reset =
      .next { State.reset with answer := .raised (.unsupportedVersion 63) } := ⟨rfl, rfl⟩

/-- S1 and S2. -/
theorem test_chk6 :
    exec (.chk6 frameS1) State.reset = .next { State.reset with answer := .passed } ∧
    exec (.chk6 frameS2) State.reset = .next { State.reset with answer := .raised (.lengthMismatch 13 14) } :=
  ⟨rfl, rfl⟩

/-- Applied by name to fewer than 13 bytes: a rule's value where the bytes it reads exist (R95, R106 with R8, R107). -/
theorem test_extractions_of_few_bytes :
    exec (.xlen [0x55, 0xFF, 0x07]) State.reset = .next { State.reset with answer := .number 10 1023 } ∧
    exec (.xtrl [0x2A, 0xE4]) State.reset = .next { State.reset with answer := .number 16 0xE42A } ∧
    (∃ plen, exec (.xpay shortBytes) State.reset = .next { State.reset with answer := .payload [] plen }) :=
  ⟨rfl, rfl, _, rfl⟩

/-- … and a free value where they do not: a byte past the end, one before the start, and the checks of R88. -/
theorem test_free_values :
    exec (.xhck []) State.reset = .next { State.reset with answer := .number 8 (Config.missingByte [] 3).toNat } ∧
    exec (.xtrl [0x2A]) State.reset =
      .next { State.reset with answer := .number 16 (le16 (Config.missingByte [0x2A] (-1)) 0x2A).toNat } ∧
    exec (.chk6 shortBytes) State.reset =
      .next { State.reset with answer := (
        checkAnswer ((Config.unstatedChk6 shortBytes).map (fun declared => .lengthMismatch declared 12))) } :=
  ⟨rfl, rfl, rfl⟩

/-- 512 bytes of 0x55: the checks 5 and 6 still test what R85 and R86 say (0x55 is version 21, and 341 the length). -/
theorem test_checks_of_many_bytes :
    exec (.chk5 longBytes) State.reset = .next { State.reset with answer := .raised (.unsupportedVersion 21) } ∧
    exec (.chk6 longBytes) State.reset = .next { State.reset with answer := .raised (.lengthMismatch 341 512) } := by
  have hn : longBytes.length = 512 := List.length_replicate
  have h : Config.lenMin ≤ longBytes.length := by rw [hn]; decide
  have h5 := (checkAnyBytes_long h versionFailure ((Config.unstatedChk5 longBytes).map .unsupportedVersion)).trans
    (versionFailure_eq h)
  have h6 := (checkAnyBytes_long h lengthFailure
    ((Config.unstatedChk6 longBytes).map (fun declared => .lengthMismatch declared longBytes.length))).trans
    (lengthFailure_eq h)
  rw [hn] at h6
  constructor
  · show execChk5 longBytes State.reset = _
    unfold execChk5
    rw [h5]
    rfl
  · show execChk6 longBytes State.reset = _
    unfold execChk6
    rw [hn, h6]
    rfl

/-- S1's header fields; and `XLEN` takes two bits of `raw[2]`, `XVER` the six others (V12). -/
theorem test_xlen_xver_xhck :
    exec (.xlen frameS1) State.reset = .next { State.reset with answer := .number 10 13 } ∧
    exec (.xlen [0x55, 0xFF, 0x07, 0, 0, 0, 0, 0, 0, 0, 0, 0, 0]) State.reset =
      .next { State.reset with answer := .number 10 1023 } ∧
    exec (.xver frameS1) State.reset = .next { State.reset with answer := .number 6 1 } ∧
    exec (.xver [0x55, 0x0D, 0xFF, 0, 0, 0, 0, 0, 0, 0, 0, 0, 0]) State.reset =
      .next { State.reset with answer := .number 6 63 } ∧
    exec (.xhck frameS1) State.reset = .next { State.reset with answer := .number 8 0x33 } :=
  ⟨rfl, rfl, rfl, rfl, rfl⟩

/-- S1: source kind 1, id 10, target kind 1, id 8, sequence number 4661. -/
theorem test_transit_s1 :
    exec (.xskind frameS1) State.reset = .next { State.reset with answer := .number 3 1 } ∧
    exec (.xsid frameS1) State.reset = .next { State.reset with answer := .number 4 10 } ∧
    exec (.xtkind frameS1) State.reset = .next { State.reset with answer := .number 3 1 } ∧
    exec (.xtid frameS1) State.reset = .next { State.reset with answer := .number 4 8 } ∧
    exec (.xseq frameS1) State.reset = .next { State.reset with answer := .number 16 4661 } :=
  ⟨rfl, rfl, rfl, rfl, rfl⟩

/-- X1: kind 7, id 14; kind 0, id 0 of 0x11; sequence number 255. -/
theorem test_transit_x1 :
    exec (.xskind frameX1) State.reset = .next { State.reset with answer := .number 3 7 } ∧
    exec (.xsid frameX1) State.reset = .next { State.reset with answer := .number 4 14 } ∧
    exec (.xtkind frameX1) State.reset = .next { State.reset with answer := .number 3 0 } ∧
    exec (.xtid frameX1) State.reset = .next { State.reset with answer := .number 4 0 } ∧
    exec (.xseq frameX1) State.reset = .next { State.reset with answer := .number 16 255 } :=
  ⟨rfl, rfl, rfl, rfl, rfl⟩

/-- X3: command type 96 (C4), set 3, id 4. -/
theorem test_command_x3 :
    exec (.xctype frameX3) State.reset = .next { State.reset with answer := .number 8 96 } ∧
    exec (.xcset frameX3) State.reset = .next { State.reset with answer := .number 8 3 } ∧
    exec (.xcid frameX3) State.reset = .next { State.reset with answer := .number 8 4 } := ⟨rfl, rfl, rfl⟩

/-- P16's payload, and S1's empty one and its trailer, low byte first. -/
theorem test_xpay_xtrl :
    exec (.xpay frameP16) State.reset = .next { State.reset with answer := .payload [0xDE, 0xAD, 0xBE] 3 } ∧
    exec (.xpay frameS1) State.reset = .next { State.reset with answer := .payload [] 0 } ∧
    exec (.xtrl frameS1) State.reset = .next { State.reset with answer := .number 16 0xE42A } := ⟨rfl, rfl, rfl⟩

theorem test_ck8_ck16 :
    exec (.ck8 [1, 2]) State.reset = .next { State.reset with answer := .number 8 (Config.ck8 [1, 2]).toNat } ∧
    exec (.ck16 []) State.reset = .next { State.reset with answer := .number 16 (Config.ck16 []).toNat } := ⟨rfl, rfl⟩

/-! ### The step -/

theorem test_step_runs_the_fetched_word :
    step (State.reset.withFetchWord 16 0x155) = .next { recvAt 1 with mem := [(0, 0x55)] } ∧
    step (State.reset.withFetchWord 32 0x00040055) = exec (.df (0x55 :: 0 :: 4 :: List.replicate 10 0)) State.reset :=
  ⟨rfl, rfl⟩

/-- K12: `rst` overrides `cmd`. -/
theorem test_step_rst_overrides :
    step (failedState.withInputs [.clock true 0x155]) = .next State.reset := rfl

theorem test_step_stops :
    step State.reset = .refused .noInput ∧
      step (State.reset.withInputs [.assembly ['5']]) = .refused .malformedHexInput := ⟨rfl, rfl⟩

/-! ### Witnesses: for each statement with hypotheses, states and operands that meet them, at the clauses' boundaries -/

/-- A receiving block that holds one byte. -/
def oneByteState : State := { recvAt 1 with mem := [(0, 0x55)] }

/-- The empty frame, closed. -/
def emptyDoneState : State := { State.reset with st := .done, res := { Results.cleared with status := 1 } }

/-- A frame that the machine's own checksum functions accept, whatever they are: the recipe's, with one payload byte. -/
def servedFrame : List Byte := recipeFrame Config.engine [0x2A, 0x28, 0x35, 0x12, 0x40, 0x01, 0x02, 0xDE]

/-- The block after that frame was pushed and closed. -/
def servedState : State :=
  { State.reset with
    st := .done, cnt := 14, mem := (List.range 14).zip servedFrame,
    res := (decode Config.engine servedFrame).results }

theorem oneByteState_written : oneByteState.BufferWritten := by
  intro a ha
  have h : a < 1 := ha
  exact ⟨0x55, by rw [show a = 0 by omega]; rfl⟩

theorem oneByteState_inv : oneByteState.Inv :=
  ⟨⟨List.pairwise_singleton _ _, by decide⟩, oneByteState_written, by decide, fun _ => rfl, fun h => by cases h⟩

theorem emptyDoneState_inv : emptyDoneState.Inv :=
  ⟨⟨List.Pairwise.nil, by decide⟩, fun a h => absurd (show a < 0 from h) (Nat.not_lt_zero a), by decide,
    fun h => by (cases h), fun _ => ⟨[], rfl, rfl⟩⟩

theorem servedFrame_accepted : decode Config.engine servedFrame = .ok (extractPacket ⟨servedFrame, by decide⟩) := by
  have hl : laterFailure Config.engine ⟨servedFrame, by decide⟩ = none := by
    rw [laterFailure_eq_none]
    refine ⟨?_, rfl, rfl, ?_⟩
    · rw [trailerFailure_eq, if_neg]
      rw [not_not]
      show (BitVec.ofNat 8 _).toNat + 256 * (BitVec.ofNat 8 _).toNat = (Config.engine.ck16 (servedFrame.take 12)).toNat
      have h := (Config.engine.ck16 (servedFrame.take 12)).isLt
      change (BitVec.ofNat 8 ((Config.engine.ck16 (servedFrame.take 12)).toNat % 256)).toNat +
        256 * (BitVec.ofNat 8 ((Config.engine.ck16 (servedFrame.take 12)).toNat / 256)).toNat = _
      rw [BitVec.toNat_ofNat, BitVec.toNat_ofNat]
      omega
    · exact if_neg (not_not.mpr rfl)
  rw [decode_frame Config.engine rfl ⟨by decide, by decide⟩]
  exact decodeFrame_eq_ok.mpr ⟨hl, rfl⟩

theorem servedState_inv : servedState.Inv := by
  refine ⟨⟨?_, ?_⟩, ?_, by decide, fun h => by (cases h), fun _ => ⟨servedFrame, rfl, rfl⟩⟩
  · show List.Pairwise _ [_, _, _, _, _, _, _, _, _, _, _, _, _, _]
    simp
  · intro c hc
    have := List.of_mem_zip (show (c.1, c.2) ∈ (List.range 14).zip servedFrame from hc)
    exact Nat.lt_trans (List.mem_range.mp this.1) (by decide)
  · intro a ha
    have h : a < 14 := ha
    interval_cases a <;> exact ⟨_, rfl⟩

/-- A block that got 512 bytes: the counter is saturated, every index of the buffer is written. -/
def fullState : State := pushBytes longBytes State.reset

theorem fullState_holds : Holds longBytes fullState := holds_pushBytes (holds_nil rfl rfl) longBytes

theorem witness_EveryStepKeepsTheInvariant :
    (servedState.withInputs [.clock false 0x300]).Inv ∧
      step (servedState.withInputs [.clock false 0x300]) = .next (releaseResult (servedState.withInputs [])) :=
  ⟨⟨servedState_inv.mem_wf, servedState_inv.buffer_written, servedState_inv.cnt_le, servedState_inv.recv_cleared,
    servedState_inv.done_image⟩, rfl⟩

/-- RECV; DONE with a failure; DONE with a success. -/
theorem witness_InvariantGivesTheListedFacts :
    (oneByteState.Inv ∧ oneByteState.st = .recv) ∧
    (emptyDoneState.Inv ∧ emptyDoneState.st = .done ∧ emptyDoneState.res.status ≠ 0) ∧
    (servedState.Inv ∧ servedState.st = .done ∧ servedState.res.status = 0) :=
  ⟨⟨oneByteState_inv, rfl⟩, ⟨emptyDoneState_inv, rfl, by decide⟩,
    servedState_inv, rfl, by unfold servedState; rw [servedFrame_accepted]; rfl⟩

theorem witness_EveryPinInputIsAnswered :
    (oneByteState.withInputs [.clock false 0x200]).Inv ∧ fromPins (.clock false 0x200) = true ∧
      (oneByteState.withInputs [.readPort 511]).Inv ∧ fromPins (.readPort 511) = true :=
  ⟨⟨oneByteState_inv.mem_wf, oneByteState_inv.buffer_written, oneByteState_inv.cnt_le, oneByteState_inv.recv_cleared,
    oneByteState_inv.done_image⟩, rfl,
    ⟨oneByteState_inv.mem_wf, oneByteState_inv.buffer_written, oneByteState_inv.cnt_le, oneByteState_inv.recv_cleared,
      oneByteState_inv.done_image⟩, rfl⟩

/-- `cnt` at 0, 510, 511 and 512 in RECV, and DONE. -/
theorem witness_PushAppendsOneByte :
    (recvAt 0).st = .recv ∧ (recvAt 0).cnt.toNat ≤ 510 ∧ (recvAt 510).cnt.toNat ≤ 510 ∧ (recvAt 511).cnt.toNat = 511 ∧
      (recvAt 512).cnt.toNat = 512 ∧ Memory.wf (recvAt 510).mem ∧ failedState.st = .done :=
  ⟨rfl, by decide, by decide, rfl, rfl, ⟨List.Pairwise.nil, by decide⟩, rfl⟩

/-- Nothing written, one byte, and a full buffer with the counter saturated. -/
theorem witness_BufferedBytesAreTheWrittenOnes :
    (recvAt 0).BufferWritten ∧ oneByteState.BufferWritten ∧ fullState.BufferWritten ∧ fullState.cnt.toNat = 512 := by
  refine ⟨fun a h => absurd (show a < 0 from h) (Nat.not_lt_zero a), oneByteState_written, fun a h => ?_, ?_⟩
  · have hr := holds_memRead fullState_holds a
    have hl : (longBytes.take 511).length = 511 := by
      rw [List.length_take, show longBytes.length = 512 from List.length_replicate]; rfl
    have ha : a < 511 := Nat.lt_of_lt_of_le h (written_le fullState)
    rw [memRead_of_lt h, List.getElem?_eq_getElem (by omega)] at hr
    exact ⟨_, hr⟩
  · rw [fullState_holds.count, show longBytes.length = 512 from List.length_replicate]
    rfl

/-- DONE; RECV with bytes to decode (none, and one); the outcomes themselves stand in test_decode_success_vectors,
test_decode_window_vectors and test_decode_failure_vectors. -/
theorem witness_EndRecordsTheOutcome :
    failedState.st = .done ∧ oneByteState.BufferWritten ∧
      ((recvAt 0).st = .recv ∧ bufferedBytes (recvAt 0) = some []) ∧
      (oneByteState.st = .recv ∧ bufferedBytes oneByteState = some [0x55]) :=
  ⟨rfl, oneByteState_written, ⟨rfl, rfl⟩, rfl, rfl⟩

theorem witness_EndCompletes : oneByteState.st = .recv ∧ oneByteState.BufferWritten := ⟨rfl, oneByteState_written⟩

theorem witness_AckReleasesTheResult : failedState.st = .done ∧ (recvAt 5).st = .recv := ⟨rfl, rfl⟩

/-- The port shut (RECV; a failure standing; one past the payload), and open at the payload's only index. -/
theorem witness_PayloadPortReadsInPlace :
    ¬ ((recvAt 0).st = .done ∧ (recvAt 0).res.status = 0 ∧ (0 : PayloadIndex).toNat < (recvAt 0).res.fPlen.toNat) ∧
    ¬ (failedState.st = .done ∧ failedState.res.status = 0 ∧
      (0 : PayloadIndex).toNat < failedState.res.fPlen.toNat) ∧
    ¬ (payloadState.st = .done ∧ payloadState.res.status = 0 ∧
      (3 : PayloadIndex).toNat < payloadState.res.fPlen.toNat) ∧
    (servedState.Inv ∧ servedState.st = .done ∧ servedState.res.status = 0 ∧
      (0 : PayloadIndex).toNat < servedState.res.fPlen.toNat) := by
  refine ⟨by decide, by decide, by decide, servedState_inv, rfl, ?_, ?_⟩ <;>
    (unfold servedState; rw [servedFrame_accepted]; decide)

theorem witness_ProtocolErrorWritesOnlyPerr :
    failedState.st = .done ∧ (recvAt 0).st = .recv ∧
      exec .ack { failedState with perr := true } = .next { State.reset with perr := true } ∧ Instr.ack ≠ .rst :=
  ⟨rfl, rfl, rfl, by decide⟩

theorem witness_PerrIsStickyUntilReset :
    exec .rst failedState = .next State.reset ∧
      (exec (.push 0) failedState = .next { failedState with perr := true } ∧ Instr.push 0 ≠ .rst) :=
  ⟨rfl, rfl, by decide⟩

/-- Into DONE by `END` and by `FRAME`, out of it by `ACK` and by `RST`. -/
theorem witness_ControlStateChangesOnlyByEndAckRst :
    (exec .endFrame (recvAt 0) = .next emptyDoneState ∧ (recvAt 0).st ≠ emptyDoneState.st) ∧
    exec (.frame []) (recvAt 0) = .next emptyDoneState ∧
    (exec .ack failedState = .next State.reset ∧ failedState.st ≠ State.reset.st) ∧
    exec .rst failedState = .next State.reset := ⟨⟨rfl, by decide⟩, rfl, ⟨rfl, by decide⟩, rfl⟩

/-- A `PUSH` at 0, at 511 (to 512) and at 512; `ACK` and `RST` of a counter that is not zero. -/
theorem witness_CounterFrame :
    (exec (.push 0x55) (recvAt 0) = .next oneByteState ∧ oneByteState.cnt ≠ (recvAt 0).cnt) ∧
    (exec (.push 0x77) (recvAt 511) = .next (recvAt 512) ∧ (recvAt 512).cnt ≠ (recvAt 511).cnt) ∧
    exec (.push 0x77) (recvAt 512) = .next (recvAt 512) ∧
    (exec .ack failedState = .next State.reset ∧ exec .rst failedState = .next State.reset ∧
      State.reset.cnt ≠ failedState.cnt) := ⟨⟨rfl, by decide⟩, ⟨rfl, by decide⟩, rfl, rfl, rfl, by decide⟩

theorem witness_ResultsWrittenOnlyByEndAckRst :
    exec (.push 0x55) (recvAt 0) = .next oneByteState ∧ writesResults (.push 0x55) = false := ⟨rfl, rfl⟩

/-- DONE; a `PUSH` and a `FRAME` that do write the buffer. -/
theorem witness_BufferFrame :
    (exec .nop failedState = .next failedState ∧ failedState.st = .done) ∧
    (exec (.push 0x55) (recvAt 0) = .next oneByteState ∧
      Memory.lookup oneByteState.mem 0 ≠ Memory.lookup (recvAt 0).mem 0) ∧
    (exec (.frame [0x55]) (recvAt 0) =
        .next { oneByteState with st := .done, res := { Results.cleared with status := 2 } } ∧
      Memory.lookup oneByteState.mem 0 ≠ Memory.lookup (recvAt 0).mem 0) :=
  ⟨⟨rfl, rfl⟩, ⟨rfl, by decide⟩, rfl, by decide⟩

theorem witness_NoInstructionReadsPerr : exec .ack failedState = .next State.reset := rfl

theorem witness_NoInstructionReadsTheAnswer :
    exec (.rdpl 0) payloadState = .next { payloadState with answer := .port 0xDE true } := rfl

/-- Two blocks that differ in a byte left over from an earlier frame. -/
theorem witness_StaleBufferBytesNeverShow :
    AgreeButStaleBytes (recvAt 0) { recvAt 0 with mem := [(0, 0xAA)] } ∧
      (recvAt 0) ≠ { recvAt 0 with mem := [(0, 0xAA)] } ∧ exec (.push 0x55) (recvAt 0) = .next oneByteState :=
  ⟨⟨rfl, rfl, rfl, rfl, rfl, rfl, fun a =>
    (memRead_of_ge (Nat.zero_le a)).trans (memRead_of_ge (s := { recvAt 0 with mem := [(0, 0xAA)] }) (Nat.zero_le a)).symm⟩,
    by decide, rfl⟩

theorem witness_StepRunsTheDecodedInstruction :
    (decodeInput (.clock false 0x155) = .ok (.push 0x55) ∧
      (State.reset.withInputs [.clock false 0x155]).inputs = [.clock false 0x155]) ∧
    State.reset.inputs = [] ∧ decodeInput (.assembly ['5']) = .error .malformedHexInput :=
  ⟨⟨by decide, rfl⟩, rfl, by decide⟩

/-- Each of the four command words with ignored bits set, and the reset over a `PUSH`. -/
theorem witness_ClockEdgeDispatch :
    commandWord 0b00 0xFF = 0x0FF ∧ commandWord 0b01 0x55 = 0x155 ∧ commandWord 0b10 0xFF = 0x2FF ∧
      commandWord 0b11 0xA5 = 0x3A5 ∧
      (failedState.withInputs [.clock true 0x155]).inputs = .clock true 0x155 :: [] := by decide

theorem witness_Idle : (recvAt 0).Idle ∧ ({ recvAt 0 with mem := [(0, 0xAA)], perr := true } : State).Idle :=
  ⟨⟨rfl, rfl⟩, rfl, rfl⟩

theorem witness_FrameShowsTheImageOfDecode : (recvAt 0).Idle := witness_Idle.1

/-- `NOP` words, one of them with data bits, before, among and after the commands. -/
theorem witness_StreamedCommandsShowTheImageOfDecode :
    (recvAt 0).Idle ∧
    ((([0x0FF, 0x155, 0x000, 0x2AA, 0x000] : List CommandWord).map decodeCommand).filter (fun i => i ≠ .nop) =
      [0x55].map .push ++ [.endFrame]) ∧
    ((recvAt 0).withInputs
      (([0x0FF, 0x155, 0x000, 0x2AA, 0x000] : List CommandWord).map (.clock false) ++ [.readPort 0])).inputs =
      ([0x0FF, 0x155, 0x000, 0x2AA, 0x000] : List CommandWord).map (.clock false) ++ [.readPort 0] :=
  ⟨witness_Idle.1, by decide, rfl⟩

theorem witness_DecodingTwiceGivesTheSame : (recvAt 0).Idle := witness_Idle.1

theorem witness_OutcomeDependsOnTheFrameOnly :
    (recvAt 0).Idle ∧ ({ recvAt 0 with mem := [(0, 0xAA)], perr := true } : State).Idle := witness_Idle

theorem witness_AckServesTheNextFrameAsResetDoes : failedState.st = .done := rfl

theorem witness_FailedFrameRecordsItsCause : (recvAt 0).Idle := witness_Idle.1

/-- The shortest and the longest body. -/
theorem witness_RecipeFrameIsServedWhole :
    (7 ≤ (List.replicate 7 (0 : Byte)).length ∧ (List.replicate 7 (0 : Byte)).length ≤ 505) ∧
    (7 ≤ (List.replicate 505 (0 : Byte)).length ∧ (List.replicate 505 (0 : Byte)).length ≤ 505) ∧ (recvAt 0).Idle := by
  refine ⟨?_, ?_, witness_Idle.1⟩ <;> rw [List.length_replicate] <;> omega

theorem witness_RecipeFrameDecodes :
    (7 ≤ (List.replicate 7 (0 : Byte)).length ∧ (List.replicate 7 (0 : Byte)).length ≤ 505) ∧
    (7 ≤ (List.replicate 505 (0 : Byte)).length ∧ (List.replicate 505 (0 : Byte)).length ≤ 505) := by
  constructor <;> rw [List.length_replicate] <;> omega

/-- `Decode'` at the buffer's capacity and at zero (beyond it, 512 is named in the statement). -/
theorem witness_DecodeIsTheChainOfChecks : (0 : Nat) ≤ 511 ∧ (511 : Nat) ≤ 511 := by decide

/-- 12 and 512 bytes. -/
theorem witness_LengthWindowOutcomes : shortBytes.length < 13 ∧ 511 < longBytes.length := by
  refine ⟨by decide, ?_⟩
  rw [show longBytes.length = 512 from List.length_replicate]
  omega

/-- S1 and X4, which differ in the unassigned bits of bytes 4 and 8 and in the trailer. -/
theorem witness_UnassignedBitsShowInNoField :
    decode candidateEngine frameS1 = .ok ⟨13, 1, 0x33, 1, 10, 1, 8, 4661, 64, 0, 0, [], 0xE42A⟩ ∧
    decode candidateEngine frameX4 = .ok ⟨13, 1, 0x33, 1, 10, 1, 8, 4661, 64, 0, 0, [], 0x0164⟩ ∧
    frameS1.length = frameX4.length ∧
    (∀ i, i < frameS1.length - 2 → i ≠ 4 → i ≠ 5 → i ≠ 8 → byteAt frameS1 i = byteAt frameX4 i) ∧
    frameS1.getD 4 0 &&& 0xEE = frameX4.getD 4 0 &&& 0xEE ∧ frameS1.getD 5 0 &&& 0xEE = frameX4.getD 5 0 &&& 0xEE ∧
    frameS1.getD 8 0 &&& 0xE0 = frameX4.getD 8 0 &&& 0xE0 := by decide +kernel

/-- A pair of checksum functions that are constantly zero, which R117 allows. -/
def zeroEngine : ChecksumEngine := { ck8 := fun _ => 0, ck16 := fun _ => 0 }

/-- Accepted frames of 13, 255, 256 and 511 bytes. -/
theorem witness_AcceptedFramesAreRecognised :
    (∃ p, decode candidateEngine frameS1 = .ok p) ∧
    (∃ p, decode zeroEngine ([0x55, 0xFF, 0x04, 0] ++ List.replicate 251 0) = .ok p) ∧
    (∃ p, decode zeroEngine ([0x55, 0x00, 0x05, 0] ++ List.replicate 252 0) = .ok p) ∧
    (∃ p, decode zeroEngine ([0x55, 0xFF, 0x05, 0] ++ List.replicate 507 0) = .ok p) := by
  have h : ∀ (b1 b2 : Byte) (k : Nat), b1.toNat + 256 * (b2.toNat % 4) = 4 + k → 9 ≤ k → k ≤ 507 → b2.toNat / 4 = 1 →
      ∃ p, decode zeroEngine ([0x55, b1, b2, 0] ++ List.replicate k 0) = .ok p := by
    intro b1 b2 k hk h9 h507 hv
    have hlen : ([0x55, b1, b2, 0] ++ List.replicate k 0 : List Byte).length = 4 + k := by simp; omega
    have hz : ∀ i, i < k → byteAt ([0x55, b1, b2, 0] ++ List.replicate k 0) (4 + i) = 0 := by
      intro i hi
      unfold byteAt
      rw [List.getD_eq_getElem?_getD, List.getElem?_append_right (by simp)]
      simp [hi]
    have hw : Config.lenMin ≤ ([0x55, b1, b2, 0] ++ List.replicate k 0 : List Byte).length ∧
        ([0x55, b1, b2, 0] ++ List.replicate k 0 : List Byte).length ≤ Config.lenMax := by
      rw [hlen]
      show 13 ≤ 4 + k ∧ 4 + k ≤ 511
      omega
    refine ⟨_, (decode_frame zeroEngine rfl hw).trans (decodeFrame_eq_ok.mpr ⟨laterFailure_eq_none.mpr ?_, rfl⟩)⟩
    have ht : storedTrailer ([0x55, b1, b2, 0] ++ List.replicate k 0) = 0 := by
      unfold storedTrailer
      rw [hlen, show 4 + k - 2 = 4 + (k - 2) by omega, show 4 + k - 1 = 4 + (k - 1) by omega, hz _ (by omega),
        hz _ (by omega)]
    refine ⟨?_, ?_, ?_, ?_⟩
    · rw [trailerFailure_eq, ht]; exact if_neg (not_not.mpr rfl)
    · rw [versionFailure_eq]; exact if_neg (not_not.mpr hv)
    · rw [lengthFailure_eq, hlen]; exact if_neg (not_not.mpr hk)
    · rw [headerFailure_eq]; exact if_neg (not_not.mpr rfl)
  exact ⟨⟨_, witness_UnassignedBitsShowInNoField.1⟩, h _ _ 251 rfl (by omega) (by omega) rfl, h _ _ 252 rfl (by omega) (by omega) rfl,
    h _ _ 507 rfl (by omega) (by omega) rfl⟩

theorem witness_DecodeOperationAgreesWithTheShell : (recvAt 0).Idle := witness_Idle.1

/-- 13 bytes, and more than a frame may have. -/
theorem witness_ContentChecksAnswer : 13 ≤ frameS1.length ∧ 13 ≤ longBytes.length :=
  ⟨by decide, by rw [show longBytes.length = 512 from List.length_replicate]; omega⟩

/-- Each clause at the fewest bytes it reads: 3 and 4; below in the same form. -/
theorem witness_HeaderExtractionsAnswer :
    3 ≤ ([0x55, 0x0D, 0x04] : List Byte).length ∧ 4 ≤ (frameS1.take 4).length := by decide

/-- 5, 6 and 8. -/
theorem witness_TransitExtractionsAnswer :
    5 ≤ (frameS1.take 5).length ∧ 6 ≤ (frameS1.take 6).length ∧ 8 ≤ (frameS1.take 8).length := by decide

/-- 9, 10 and 11. -/
theorem witness_CommandExtractionsAnswer :
    9 ≤ (frameS1.take 9).length ∧ 10 ≤ (frameS1.take 10).length ∧ 11 ≤ (frameS1.take 11).length := by decide

/-- 2; 13; and 524, the most for which `n - 13` has 9 bits. -/
theorem witness_PayloadAndTrailerExtractionsAnswer :
    2 ≤ ([0x2A, 0xE4] : List Byte).length ∧ (13 ≤ frameS1.length ∧ frameS1.length ≤ 524) ∧
      (13 ≤ (List.replicate 524 (0 : Byte)).length ∧ (List.replicate 524 (0 : Byte)).length ≤ 524) := by
  refine ⟨by decide, by decide, ?_⟩
  rw [List.length_replicate]
  decide

/-- One word of each row, the first and the last of `PUSH`'s. -/
theorem witness_CommandWordsDecodeByTheirRow :
    (0x0FF : CommandWord) &&& 0x300 = 0x000 ∧ (0x100 : CommandWord) &&& 0x300 = 0x100 ∧
      (0x1FF : CommandWord) &&& 0x300 = 0x100 ∧ (0x2FF : CommandWord) &&& 0x300 = 0x200 ∧
      (0x3A5 : CommandWord) &&& 0x300 = 0x300 := by decide

/-- Digits: each range's ends. Accepted: the empty string, and each range's ends. Refused: an odd number; the characters next to each range. -/
theorem witness_HexStringsAreAcceptedExactly :
    (('0' ≤ '0' ∧ '9' ≤ '9') ∧ ('a' ≤ 'a' ∧ 'f' ≤ 'f') ∧ ('A' ≤ 'A' ∧ 'F' ≤ 'F')) ∧
    ((stripSpaces []).length % 2 = 0 ∧ ∀ c ∈ stripSpaces [], ('0' ≤ c ∧ c ≤ '9') ∨ ('a' ≤ c ∧ c ≤ 'f') ∨
      ('A' ≤ c ∧ c ≤ 'F')) ∧
    ((stripSpaces ['0', '9', ' ', 'a', 'f', 'A', 'F']).length % 2 = 0 ∧
      ∀ c ∈ stripSpaces ['0', '9', ' ', 'a', 'f', 'A', 'F'], ('0' ≤ c ∧ c ≤ '9') ∨ ('a' ≤ c ∧ c ≤ 'f') ∨
        ('A' ≤ c ∧ c ≤ 'F')) ∧
    (stripSpaces ['5']).length % 2 ≠ 0 ∧
    (∀ c ∈ ['/', ':', '`', 'g', '@', 'G'], ¬ (('0' ≤ c ∧ c ≤ '9') ∨ ('a' ≤ c ∧ c ≤ 'f') ∨ ('A' ≤ c ∧ c ≤ 'F'))) := by
  refine ⟨by decide, ⟨by decide, fun c hc => by cases hc⟩, ⟨by decide, fun c hc => ?_⟩, by decide, fun c hc => ?_⟩
  · rw [show stripSpaces ['0', '9', ' ', 'a', 'f', 'A', 'F'] = ['0', '9', 'a', 'f', 'A', 'F'] by decide] at hc
    fin_cases hc <;> decide
  · fin_cases hc <;> decide

end Sys2Proof.Machine
end

section
/-! A whole frame through the shell (R2, R72, R73): what the pushes leave alone in the buffer, what `END` does with a frame
received so far, and the two put together for `FRAME` from an idle block. -/

namespace Sys2Proof.Machine

/-! ### What the pushes leave alone -/

/-- A `PUSH` writes no buffer byte but the one at index `cnt`, and none outside the buffer (R67). -/
theorem lookup_pushByte_other (b : Byte) {s : State} {a : Nat} (h : a ≠ s.cnt.toNat ∨ Config.bufBytes ≤ a) :
    Memory.lookup (pushByte b s).mem a = Memory.lookup s.mem a := by
  rcases pushByte_cases b s with ⟨_, e⟩ | ⟨hroom, _, e⟩ | ⟨_, _, e⟩ | ⟨_, _, e⟩ <;> rw [e]
  case inr.inl =>
    have hne : a ≠ s.cnt.toNat := by omega
    exact lookup_store_other _ _ hne
  all_goals rfl

/-- The `PUSH` commands of `bs`, given to a block that has received `pre`, write no buffer byte from the end of the stored
bytes on. -/
theorem lookup_pushBytes_beyond {pre : List Byte} {s : State} (h : Holds pre s) (bs : List Byte) {a : Nat}
    (ha : min (pre ++ bs).length 511 ≤ a) :
    Memory.lookup (pushBytes bs s).mem a = Memory.lookup s.mem a := by
  induction bs generalizing pre s with
  | nil => rfl
  | cons b bs ih =>
    have hrest := ih (holds_pushByte h b) (by rwa [List.append_assoc])
    have hfirst : a ≠ s.cnt.toNat ∨ Config.bufBytes ≤ a := by
      have hcnt := h.count
      rw [List.length_append, List.length_cons] at ha
      show _ ∨ 511 ≤ a
      omega
    rw [pushBytes_cons, hrest, lookup_pushByte_other b hfirst]

/-! ### END and FRAME -/

/-- An idle block has received nothing of a frame. -/
theorem State.Idle.holds_nil {s : State} (h : s.Idle) : Holds [] s :=
  Machine.holds_nil h.1 h.2

/-- From an idle block, the `PUSH` commands of `raw` make it the frame received so far. -/
theorem State.Idle.holds_pushBytes {s : State} (h : s.Idle) (raw : List Byte) : Holds raw (pushBytes raw s) :=
  Machine.holds_pushBytes h.holds_nil raw

/-- `END` records `Decode` of the whole frame received, though the block keeps 511 bytes of it (R68, R73). -/
theorem closeFrame_of_holds (E : ChecksumEngine) {raw : List Byte} {s : State} (h : Holds raw s) :
    closeFrame E s = .next (recordOutcome (decode E raw) s) := by
  rw [closeFrame_recv E h.recv (holds_bufferedBytes h), h.count, decodeBuffered_take]

/-- What `FRAME` executes (R60). -/
theorem exec_frame (raw : List Byte) (s : State) :
    exec (.frame raw) s = closeFrame Config.engine (pushBytes raw s) := rfl

/-- What `DF` executes (R72). -/
theorem exec_df (raw : List Byte) (s : State) :
    exec (.df raw) s = .next (answerWith (.outcome (decode Config.engine raw)) s) := rfl

/-- `FRAME raw` from an idle block: the bytes are pushed and `Decode` of them is recorded (R2, R73). -/
theorem exec_frame_of_idle {s : State} (h : s.Idle) (raw : List Byte) :
    exec (.frame raw) s = .next (recordOutcome (decode Config.engine raw) (pushBytes raw s)) := by
  rw [exec_frame, closeFrame_of_holds _ (h.holds_pushBytes raw)]

/-! ### The obligations -/

/-- Settles O24: the state `FRAME` leaves is the pushed block with the outcome recorded, and the pushes' lemmas give each
of its components. -/
theorem frameShowsTheImageOfDecode : Obligations.FrameShowsTheImageOfDecode := by
  intro raw s hidle
  have hpushed : Holds raw (pushBytes raw s) := hidle.holds_pushBytes raw
  refine ⟨_, exec_frame_of_idle hidle raw, recordOutcome_st _ _, recordOutcome_res _ _, ?cnt, ?stored, ?beyond, ?perr,
    ?answer, ?inputs⟩
  case cnt => rw [recordOutcome_cnt, hpushed.count]
  case stored => rw [bufferedBytes_congr (recordOutcome_cnt _ _) (recordOutcome_mem _ _), holds_bufferedBytes hpushed]
  case beyond =>
    intro a ha
    rw [recordOutcome_mem, lookup_pushBytes_beyond hidle.holds_nil raw (by rwa [List.nil_append])]
  case perr => rw [recordOutcome_perr, pushBytes_perr raw hidle.1]
  case answer => rw [recordOutcome_answer, pushBytes_answer]
  case inputs => rw [recordOutcome_inputs, pushBytes_inputs]

/-- Settles O37: `DF` answers `Decode` and `FRAME` records it. -/
theorem decodeOperationAgreesWithTheShell : Obligations.DecodeOperationAgreesWithTheShell := by
  intro raw s
  have hdf := exec_df raw s
  exact ⟨hdf, fun hidle => ⟨_, exec_frame_of_idle hidle raw, recordOutcome_res _ _⟩⟩

end Sys2Proof.Machine
end

section
/-! What one instruction can do to the block, said once with the control state resolved (R74), and the whole-machine rules
that follow: who writes which register, and which fields no instruction reads. -/

namespace Sys2Proof.Machine

/-! ### The effects of an instruction -/

/-- `i` ends the frame being received, after pushing `bytes`: an `END` pushes none, a `FRAME` its own (R60). -/
def ClosesAfter (i : Instr) (bytes : List Byte) : Prop := (i = .endFrame ∧ bytes = []) ∨ i = .frame bytes

/-- The effects an answered instruction can have on the state `s`. -/
inductive Effect (s : State) : Instr → State → Prop
  /-- `NOP` (R66). -/
  | nothing : Effect s .nop s
  /-- A `PUSH` that the control state accepts (R67). -/
  | received (b : Byte) (hst : s.st = .recv) : Effect s (.push b) (pushByte b s)
  /-- An `END` that the control state accepts, at the end of a `FRAME` or alone (R68). -/
  | recorded {i : Instr} {bytes stored : List Byte} (hi : ClosesAfter i bytes) (hst : s.st = .recv)
      (hbuf : bufferedBytes (pushBytes bytes s) = some stored) :
      Effect s i
        (recordOutcome (decodeBuffered Config.engine (pushBytes bytes s).cnt.toNat stored) (pushBytes bytes s))
  /-- An `ACK` that the control state accepts (R69). -/
  | released (hst : s.st = .done) : Effect s .ack (releaseResult s)
  /-- `RST` (R65). -/
  | reset : Effect s .rst (resetRegisters s)
  /-- A command that the control state does not accept, or the protocol error itself (R71). -/
  | misused {i : Instr} (hi : setsPerr i s.st = true) : Effect s i (raiseProtocolError s)
  /-- An operation that answers a value (R70, R72). -/
  | answered {i : Instr} (hi : answersOnly i = true) (a : Answer) : Effect s i (answerWith a s)

/-- In DONE a protocol error after a run of `PUSH` commands is one protocol error (R71). -/
theorem raiseProtocolError_pushBytes (bs : List Byte) {s : State} (hst : s.st = .done) :
    raiseProtocolError (pushBytes bs s) = raiseProtocolError s := by
  rcases pushBytes_done bs hst with e | e
  · rw [e]
  · rw [e]; rfl

/-- An `END` or a `FRAME` that answers a next state is a misuse in DONE and records an outcome in RECV. -/
theorem ClosesAfter.effect {i : Instr} {bytes : List Byte} {s t : State} (hi : ClosesAfter i bytes)
    (h : closeFrame Config.engine (pushBytes bytes s) = .next t) : Effect s i t := by
  rcases closeFrame_next h with ⟨hst, rfl⟩ | ⟨stored, hst, hbuf, rfl⟩
  · rw [pushBytes_st] at hst
    have hmisuse : setsPerr i s.st = true := by
      rcases hi with ⟨rfl, _⟩ | rfl <;> rw [hst] <;> rfl
    rw [raiseProtocolError_pushBytes bytes hst]
    exact .misused hmisuse
  · rw [pushBytes_st] at hst
    exact .recorded hi hst hbuf

/-- Every next state an instruction answers is one of its effects. -/
theorem exec_effect {i : Instr} {s t : State} (h : exec i s = .next t) : Effect s i t := by
  rcases exec_next h with ⟨rfl, rfl⟩ | ⟨b, rfl, rfl⟩ | ⟨rfl, hclose⟩ | ⟨rfl, rfl⟩ | ⟨rfl, rfl⟩ |
    ⟨bytes, rfl, hclose⟩ | ⟨rfl, rfl⟩ | ⟨hi, a, rfl⟩
  · exact .nothing
  · cases hst : s.st with
    | recv => exact .received b hst
    | done => rw [pushByte_done b hst]; exact .misused (by rw [hst]; rfl)
  · exact ClosesAfter.effect (bytes := []) (.inl ⟨rfl, rfl⟩) hclose
  · cases hst : s.st with
    | recv => rw [acknowledge_recv hst]; exact .misused (by rw [hst]; rfl)
    | done => rw [acknowledge_done hst]; exact .released hst
  · exact .reset
  · exact ClosesAfter.effect (.inr rfl) hclose
  · exact .misused rfl
  · exact .answered hi a

/-! ### Which instruction is a misuse -/

/-- The misuses, control state by control state (R71, R140). -/
theorem setsPerr_cases {i : Instr} {st : ControlState} (h : setsPerr i st = true) :
    i = .protocolError ∨ (st = .done ∧ ((∃ b, i = .push b) ∨ ∃ bytes, ClosesAfter i bytes)) ∨
      (st = .recv ∧ i = .ack) := by
  unfold setsPerr at h
  split at h
  case h_1 b => exact .inr (.inl ⟨rfl, .inl ⟨b, rfl⟩⟩)
  case h_2 => exact .inr (.inl ⟨rfl, .inr ⟨[], .inl ⟨rfl, rfl⟩⟩⟩)
  case h_3 bytes => exact .inr (.inl ⟨rfl, .inr ⟨bytes, .inr rfl⟩⟩)
  case h_4 => exact .inr (.inr ⟨rfl, rfl⟩)
  case h_5 => exact .inl rfl
  case h_6 => cases h

/-- What `END` or `FRAME` executes. -/
theorem ClosesAfter.exec_eq {i : Instr} {bytes : List Byte} (hi : ClosesAfter i bytes) (s : State) :
    exec i s = closeFrame Config.engine (pushBytes bytes s) := by
  rcases hi with ⟨rfl, rfl⟩ | rfl <;> rfl

/-- A misuse only raises the protocol error. -/
theorem exec_misused {i : Instr} {s : State} (h : setsPerr i s.st = true) : exec i s = .next (raiseProtocolError s) := by
  rcases setsPerr_cases h with rfl | ⟨hst, ⟨b, rfl⟩ | ⟨bytes, hi⟩⟩ | ⟨hst, rfl⟩
  · rfl
  · show Host.Outcome.next (pushByte b s) = _
    rw [pushByte_done b hst]
  · rw [hi.exec_eq, closeFrame_done _ (by rw [pushBytes_st, hst]), raiseProtocolError_pushBytes bytes hst]
  · show Host.Outcome.next (acknowledge s) = _
    rw [acknowledge_recv hst]

/-- In RECV neither `END` nor `FRAME` is a misuse. -/
theorem ClosesAfter.setsPerr_recv {i : Instr} {bytes : List Byte} (hi : ClosesAfter i bytes) :
    setsPerr i .recv = false := by
  rcases hi with ⟨rfl, _⟩ | rfl <;> rfl

/-- An operation that answers a value is a misuse in no control state. -/
theorem setsPerr_of_answersOnly {i : Instr} (hi : answersOnly i = true) (st : ControlState) :
    setsPerr i st = false := by
  cases hm : setsPerr i st with
  | false => rfl
  | true =>
    rcases setsPerr_cases hm with rfl | ⟨_, ⟨b, rfl⟩ | ⟨bytes, ⟨rfl, _⟩ | rfl⟩⟩ | ⟨_, rfl⟩ <;> cases hi

/-! ### What a run of PUSH commands moves -/

/-- A `PUSH` takes the counter up by at most one, from any value. -/
theorem pushByte_cnt_bounds (b : Byte) (s : State) :
    s.cnt.toNat ≤ (pushByte b s).cnt.toNat ∧ (pushByte b s).cnt.toNat ≤ s.cnt.toNat + 1 := by
  rcases pushByte_cases b s with ⟨_, e⟩ | ⟨hroom, _, e⟩ | ⟨_, hfull, e⟩ | ⟨_, _, e⟩ <;> rw [e]
  · rw [raiseProtocolError_cnt]; omega
  · have hroom' : s.cnt.toNat < 511 := hroom
    have hnext : (s.cnt + 1).toNat = s.cnt.toNat + 1 := by bv_omega
    show s.cnt.toNat ≤ (s.cnt + 1).toNat ∧ (s.cnt + 1).toNat ≤ _
    omega
  · have hfull' : s.cnt.toNat = 511 := hfull
    show s.cnt.toNat ≤ 512 ∧ 512 ≤ s.cnt.toNat + 1
    omega
  · omega

/-- A buffer byte that a `PUSH` changes is the one at index `cnt`, inside the buffer (R67). -/
theorem lookup_pushByte_changed {b : Byte} {s : State} {a : Nat}
    (h : Memory.lookup (pushByte b s).mem a ≠ Memory.lookup s.mem a) : a = s.cnt.toNat ∧ a ≤ 510 := by
  have hin : ¬ (a ≠ s.cnt.toNat ∨ 511 ≤ a) := fun hout => h (lookup_pushByte_other b hout)
  omega

/-- A buffer byte that a run of `PUSH` commands changes lies in the stretch they fill (R37). -/
theorem lookup_pushBytes_changed {bs : List Byte} {s : State} {a : Nat}
    (h : Memory.lookup (pushBytes bs s).mem a ≠ Memory.lookup s.mem a) :
    s.cnt.toNat ≤ a ∧ a ≤ 510 ∧ a < s.cnt.toNat + bs.length := by
  induction bs generalizing s with
  | nil => exact absurd rfl h
  | cons b bs ih =>
    rw [List.length_cons]
    by_cases hfirst : Memory.lookup (pushByte b s).mem a = Memory.lookup s.mem a
    · rw [pushBytes_cons, ← hfirst] at h
      obtain ⟨hlow, hin, hhigh⟩ := ih h
      obtain ⟨hup, hone⟩ := pushByte_cnt_bounds b s
      omega
    · obtain ⟨hat, hin⟩ := lookup_pushByte_changed hfirst
      omega

/-! ### The obligations on single registers -/

/-- Settles O14, effect by effect. -/
theorem perrIsStickyUntilReset : Obligations.PerrIsStickyUntilReset := by
  intro i s t h
  have key : i ≠ .rst → t.perr = (s.perr || setsPerr i s.st) := by
    intro hrst
    cases exec_effect h with
    | nothing => simp [setsPerr]
    | received b hst => rw [pushByte_perr b hst, hst]; simp [setsPerr]
    | recorded hi hst _ =>
      rw [recordOutcome_perr, pushBytes_perr _ hst, hst, hi.setsPerr_recv, Bool.or_false]
    | released hst => rw [hst]; simp [setsPerr]
    | reset => exact absurd rfl hrst
    | misused hi => rw [raiseProtocolError_perr, hi, Bool.or_true]
    | answered hi a => rw [answerWith_perr, setsPerr_of_answersOnly hi, Bool.or_false]
  refine ⟨fun hrst => ?_, key⟩
  subst hrst
  cases h
  rfl

/-- Settles O15, effect by effect: the two effects that change `st` are `recorded` and a return to RECV. -/
theorem controlStateChangesOnlyByEndAckRst : Obligations.ControlStateChangesOnlyByEndAckRst := by
  intro i s t h hne
  cases exec_effect h with
  | nothing => exact absurd rfl hne
  | received b _ => exact absurd (pushByte_st b s).symm hne
  | recorded hi hst _ => exact .inl ⟨hst, recordOutcome_st _ _, hi.imp And.left (fun hframe => ⟨_, hframe⟩)⟩
  | released hst => exact .inr ⟨hst, rfl, .inl rfl⟩
  | reset =>
    have hst : s.st = .done := by
      cases hs : s.st with
      | recv => exact absurd hs hne
      | done => rfl
    exact .inr ⟨hst, rfl, .inr rfl⟩
  | misused _ => exact absurd rfl hne
  | answered _ _ => exact absurd rfl hne

/-- Settles O16: the `PUSH` clause is the law of the counter; the rest goes effect by effect. -/
theorem counterFrame : Obligations.CounterFrame := by
  intro i s t h
  refine ⟨fun b hi hst hcnt => ?_, fun hne => ?_⟩
  · subst hi
    cases h
    exact pushByte_cnt b hst hcnt
  · cases exec_effect h with
    | nothing => exact absurd rfl hne
    | received b hst => exact .inl ⟨hst, .inl ⟨b, rfl⟩⟩
    | recorded hi hst _ =>
      rcases hi with ⟨_, rfl⟩ | hframe
      · exact absurd rfl hne
      · exact .inl ⟨hst, .inr ⟨_, hframe⟩⟩
    | released hst => exact .inr ⟨rfl, .inl ⟨hst, rfl⟩⟩
    | reset => exact .inr ⟨rfl, .inr rfl⟩
    | misused _ => exact absurd rfl hne
    | answered _ _ => exact absurd rfl hne

/-- Settles O17, effect by effect: the three effects that write the result registers are those of `END`, `FRAME`, `ACK` and
`RST`. -/
theorem resultsWrittenOnlyByEndAckRst : Obligations.ResultsWrittenOnlyByEndAckRst := by
  intro i s t h hi
  cases exec_effect h with
  | nothing => rfl
  | received b _ => exact pushByte_res b s
  | recorded hclose _ _ => rcases hclose with ⟨rfl, _⟩ | rfl <;> cases hi
  | released _ => cases hi
  | reset => cases hi
  | misused _ => rfl
  | answered _ _ => rfl

/-- Settles O18: only `received` and `recorded` write the buffer, both in RECV, and they write what their pushes write. -/
theorem bufferFrame : Obligations.BufferFrame := by
  intro i s t h
  cases exec_effect h with
  | received b hst =>
    refine ⟨fun hdone => (nomatch hst.symm.trans hdone), fun a ha => ?_⟩
    obtain ⟨hat, hin⟩ := lookup_pushByte_changed ha
    exact ⟨hat.ge, hin, .inl ⟨b, rfl, hat⟩⟩
  | @recorded _ bytes _ hi hst _ =>
    refine ⟨fun hdone => (nomatch hst.symm.trans hdone), fun a ha => ?_⟩
    rw [recordOutcome_mem] at ha
    obtain ⟨hlow, hin, hhigh⟩ := lookup_pushBytes_changed ha
    rcases hi with ⟨_, rfl⟩ | hframe
    · exact absurd rfl ha
    · exact ⟨hlow, hin, .inr ⟨bytes, hframe, hhigh⟩⟩
  | nothing => exact ⟨fun _ => rfl, fun _ ha => absurd rfl ha⟩
  | released _ => exact ⟨fun _ => rfl, fun _ ha => absurd rfl ha⟩
  | reset => exact ⟨fun _ => rfl, fun _ ha => absurd rfl ha⟩
  | misused _ => exact ⟨fun _ => rfl, fun _ ha => absurd rfl ha⟩
  | answered _ _ => exact ⟨fun _ => rfl, fun _ ha => absurd rfl ha⟩

/-! ### The fields that no instruction reads -/

/-- The state with other contents of the two fields that no rule reads: `perr` (R21) and the model's own `answer`. -/
def State.withMarks (s : State) (p : Bool) (a : Answer) : State := { s with perr := p, answer := a }

@[simp] theorem withMarks_st (s : State) (p : Bool) (a : Answer) : (s.withMarks p a).st = s.st := rfl
@[simp] theorem withMarks_self (s : State) : s.withMarks s.perr s.answer = s := rfl

/-- Neither of the two fields takes part in what the buffer holds. -/
theorem bufferedBytes_withMarks (s : State) (p : Bool) (a : Answer) :
    bufferedBytes (s.withMarks p a) = bufferedBytes s := bufferedBytes_congr rfl rfl

/-- In RECV a `PUSH` takes no notice of the two fields, and leaves them alone. -/
theorem pushByte_withMarks (b : Byte) {s : State} (hst : s.st = .recv) (p : Bool) (a : Answer) :
    pushByte b (s.withMarks p a) = (pushByte b s).withMarks p a := by
  rcases pushByte_cases b s with ⟨hdone, _⟩ | ⟨hroom, _, e⟩ | ⟨_, hfull, e⟩ | ⟨_, hsat, e⟩
  · rw [hst] at hdone; cases hdone
  · rw [e, pushByte_room b (s := s.withMarks p a) hst hroom]; rfl
  · rw [e, pushByte_full b (s := s.withMarks p a) hst hfull]; rfl
  · rw [e, pushByte_saturated b (s := s.withMarks p a) hst hsat]

/-- The same of a run of `PUSH` commands. -/
theorem pushBytes_withMarks (bs : List Byte) {s : State} (hst : s.st = .recv) (p : Bool) (a : Answer) :
    pushBytes bs (s.withMarks p a) = (pushBytes bs s).withMarks p a := by
  induction bs generalizing s with
  | nil => rfl
  | cons b bs ih => rw [pushBytes_cons, pushByte_withMarks b hst, ih (by rw [pushByte_st, hst])]; rfl

/-- What an instruction does to each of the two fields depends on that field only, and what it does to everything else
depends on neither. -/
theorem exec_withMarks {i : Instr} {s t : State} (h : exec i s = .next t) :
    ∃ (f : Bool → Bool) (g : Answer → Answer), ∀ p a, exec i (s.withMarks p a) = .next (t.withMarks (f p) (g a)) := by
  cases exec_effect h with
  | nothing => exact ⟨id, id, fun _ _ => rfl⟩
  | received b hst => exact ⟨id, id, fun p a => congrArg Host.Outcome.next (pushByte_withMarks b hst p a)⟩
  | recorded hi hst hbuf =>
    refine ⟨id, id, fun p a => ?_⟩
    rw [hi.exec_eq, pushBytes_withMarks _ hst]
    exact closeFrame_recv Config.engine (by rw [withMarks_st, pushBytes_st, hst])
      ((bufferedBytes_withMarks _ p a).trans hbuf)
  | released hst =>
    exact ⟨id, id, fun p a => congrArg Host.Outcome.next (acknowledge_done (s := s.withMarks p a) hst)⟩
  | reset => exact ⟨fun _ => false, id, fun _ _ => rfl⟩
  | misused hi => exact ⟨fun _ => true, id, fun p a => exec_misused (s := s.withMarks p a) hi⟩
  | answered hi a =>
    obtain ⟨a', ha', hsame⟩ := exec_answersOnly hi h
    refine ⟨id, fun _ => a', fun p q => ?_⟩
    rw [ha']
    exact hsame (s.withMarks p q) rfl rfl (memRead_congr rfl rfl)

/-- The same, with what the instruction does to the contents that are there. -/
theorem exec_withMarks_own {i : Instr} {s t : State} (h : exec i s = .next t) :
    ∃ (f : Bool → Bool) (g : Answer → Answer), f s.perr = t.perr ∧ g s.answer = t.answer ∧
      ∀ p a, exec i (s.withMarks p a) = .next (t.withMarks (f p) (g a)) := by
  obtain ⟨f, g, hmarks⟩ := exec_withMarks h
  have hown : t = t.withMarks (f s.perr) (g s.answer) :=
    Host.Outcome.next.inj (h.symm.trans (hmarks s.perr s.answer))
  exact ⟨f, g, (congrArg State.perr hown).symm, (congrArg State.answer hown).symm, hmarks⟩

/-- Settles O19: another `perr` beside the same `answer`. -/
theorem noInstructionReadsPerr : Obligations.NoInstructionReadsPerr := by
  intro i s t p h
  obtain ⟨f, g, _, hanswer, hmarks⟩ := exec_withMarks_own h
  have hother := hmarks p s.answer
  rw [hanswer] at hother
  exact ⟨f p, hother⟩

/-- Settles O20: another `answer` beside the same `perr`. -/
theorem noInstructionReadsTheAnswer : Obligations.NoInstructionReadsTheAnswer := by
  intro i s t a h
  obtain ⟨f, g, hperr, _, hmarks⟩ := exec_withMarks_own h
  have hother := hmarks s.perr a
  rw [hperr] at hother
  exact ⟨g a, hother⟩

end Sys2Proof.Machine
end

section
/-! The invariant of R24: every effect keeps it, and what it says of the registers of a successful frame. -/

namespace Sys2Proof.Machine

/-! ### The invariant is kept -/

/-- The invariant speaks of `st`, `cnt`, the buffer and the result registers only. -/
theorem State.Inv.congr {s t : State} (h : s.Inv) (hst : t.st = s.st) (hcnt : t.cnt = s.cnt) (hmem : t.mem = s.mem)
    (hres : t.res = s.res) : t.Inv where
  mem_wf := by rw [hmem]; exact h.mem_wf
  buffer_written := fun a ha => by
    rw [hmem]
    exact h.buffer_written a (by rwa [written_congr hcnt] at ha)
  cnt_le := by rw [hcnt]; exact h.cnt_le
  recv_cleared := fun hrecv => by rw [hres]; exact h.recv_cleared (hst.symm.trans hrecv)
  done_image := fun hdone => by
    rw [hres, hcnt, bufferedBytes_congr hcnt hmem]
    exact h.done_image (hst.symm.trans hdone)

/-- An idle block with cleared result registers meets the invariant, whatever an earlier frame left in its buffer. -/
theorem State.Idle.inv {s : State} (h : s.Idle) (hmem : Memory.wf s.mem) (hres : s.res = Results.cleared) : s.Inv where
  mem_wf := hmem
  buffer_written := fun a ha => by
    have hcnt : s.cnt.toNat = 0 := by rw [h.2]; rfl
    have hwritten := written_le_cnt s
    omega
  cnt_le := by rw [h.2]; exact Nat.zero_le _
  recv_cleared := fun _ => hres
  done_image := fun hdone => nomatch h.1.symm.trans hdone

/-- In RECV a `PUSH` keeps the written range full of bytes: the one it adds is stored, or is beyond the buffer (R67). -/
theorem pushByte_bufferWritten (b : Byte) {s : State} (hst : s.st = .recv) (h : s.BufferWritten) :
    (pushByte b s).BufferWritten := by
  intro a ha
  have ha' : a < min (pushByte b s).cnt.toNat 511 := ha
  have hold : a < min s.cnt.toNat 511 → ∃ v, Memory.lookup s.mem a = some v := h a
  rcases pushByte_cases b s with ⟨hdone, _⟩ | ⟨hroom, _, e⟩ | ⟨_, hfull, e⟩ | ⟨_, _, e⟩
  · exact nomatch hst.symm.trans hdone
  · obtain ⟨_, hone⟩ := pushByte_cnt_bounds b s
    rw [e]
    show ∃ v, Memory.lookup (Memory.store s.mem s.cnt.toNat b) a = some v
    by_cases hat : a = s.cnt.toNat
    · rw [hat]; exact ⟨b, lookup_store_same _ _ _⟩
    · rw [lookup_store_other _ _ hat]; exact hold (by omega)
  · have hfull' : s.cnt.toNat = 511 := hfull
    rw [e]
    exact hold (by omega)
  · rw [e] at ha' ⊢
    exact hold ha'

/-- In RECV a `PUSH` keeps the invariant. -/
theorem pushByte_inv (b : Byte) {s : State} (hst : s.st = .recv) (h : s.Inv) : (pushByte b s).Inv where
  mem_wf := pushByte_wf b h.mem_wf
  buffer_written := pushByte_bufferWritten b hst h.buffer_written
  cnt_le := by rw [pushByte_cnt b hst h.cnt_le]; exact Nat.min_le_right _ _
  recv_cleared := fun _ => by rw [pushByte_res]; exact h.recv_cleared hst
  done_image := fun hdone => nomatch hst.symm.trans ((pushByte_st b s).symm.trans hdone)

/-- In RECV a run of `PUSH` commands keeps the invariant. -/
theorem pushBytes_inv (bs : List Byte) {s : State} (hst : s.st = .recv) (h : s.Inv) : (pushBytes bs s).Inv := by
  induction bs generalizing s with
  | nil => exact h
  | cons b bs ih => exact ih (by rw [pushByte_st, hst]) (pushByte_inv b hst h)

/-- Recording the outcome of the buffered bytes keeps the invariant: the buffer it is the image of is not written (R135). -/
theorem recordOutcome_inv {s : State} {stored : List Byte} (h : s.Inv) (hbuf : bufferedBytes s = some stored) :
    (recordOutcome (decodeBuffered Config.engine s.cnt.toNat stored) s).Inv where
  mem_wf := h.mem_wf
  buffer_written := h.buffer_written
  cnt_le := h.cnt_le
  recv_cleared := fun hrecv => nomatch hrecv
  done_image := fun _ => ⟨stored, (bufferedBytes_congr (recordOutcome_cnt _ _) (recordOutcome_mem _ _)).trans hbuf, rfl⟩

/-- Every effect keeps the invariant. -/
theorem Effect.inv {i : Instr} {s t : State} (he : Effect s i t) (h : s.Inv) : t.Inv := by
  cases he with
  | nothing => exact h
  | received b hst => exact pushByte_inv b hst h
  | recorded _ hst hbuf => exact recordOutcome_inv (pushBytes_inv _ hst h) hbuf
  | released _ => exact State.Idle.inv ⟨rfl, rfl⟩ h.mem_wf rfl
  | reset => exact State.Idle.inv ⟨rfl, rfl⟩ h.mem_wf rfl
  | misused _ => exact h.congr rfl rfl rfl rfl
  | answered _ _ => exact h.congr rfl rfl rfl rfl

/-- Settles O3: taking the input keeps the invariant, and so does the instruction's effect. -/
theorem everyStepKeepsTheInvariant : Obligations.EveryStepKeepsTheInvariant := by
  intro s t h hstep
  obtain ⟨x, rest, i, _, _, hexec⟩ := step_next hstep
  have htaken : (s.withInputs rest).Inv := h.congr rfl rfl rfl rfl
  exact (exec_effect hexec).inv htaken

/-! ### The result registers of an outcome -/

/-- No failure has the code of success (R14). -/
theorem DecodeError.code_ne_zero (e : DecodeError) : e.code ≠ 0 := by
  cases e <;> simp [DecodeError.code]

/-- Of a failure only the code and the diagnostic values are recorded (R15). -/
theorem results_of_status_ne_zero {o : DecodeOutcome} (h : o.results.status ≠ 0) :
    o.results =
      { Results.cleared with status := o.results.status, infoA := o.results.infoA, infoB := o.results.infoB } := by
  cases o with
  | ok p => exact absurd rfl h
  | fail e => rfl

/-- Code 0 is recorded of a success only (R14). -/
theorem ok_of_status_eq_zero {o : DecodeOutcome} (h : o.results.status = 0) : ∃ p, o = .ok p := by
  cases o with
  | ok p => exact ⟨p, rfl⟩
  | fail e => exact absurd h e.code_ne_zero

/-! ### What a successful Decode has checked -/

/-- What passing `CHK4` establishes (R84). -/
theorem trailerFailure_eq_none {E : ChecksumEngine} {f : Frame} :
    trailerFailure E f = none ↔ le16 f.trailerLow f.trailerHigh = E.ck16 f.body := by
  simp [trailerFailure]

/-- What passing `CHK5` establishes (R85). -/
theorem versionFailure_eq_none {f : Frame} : versionFailure f = none ↔ versionField (f.byte 2) = 1 := by
  simp [versionFailure]

/-- What passing `CHK6` establishes (R86). -/
theorem lengthFailure_eq_none {f : Frame} :
    lengthFailure f = none ↔ (lengthField (f.byte 1) (f.byte 2)).toNat = f.size := by
  simp [lengthFailure]

/-- What passing `CHK7` establishes (R87). -/
theorem headerFailure_eq_none {E : ChecksumEngine} {f : Frame} :
    headerFailure E f = none ↔ E.ck8 f.headerBytes = f.byte 3 := by
  simp [headerFailure]

/-- What a successful `Decode` has established: the frame `f` and the record `p` of the bytes (R72, R89). -/
structure Accepted (E : ChecksumEngine) (f : Frame) (p : DecodedPacket) : Prop where
  /-- R108. -/
  packet : p = extractPacket f
  /-- R83. -/
  short : f.size ≤ 511
  /-- R81. -/
  magic : f.raw[0]? = some 0x55
  /-- R84. -/
  trailer : le16 f.trailerLow f.trailerHigh = E.ck16 f.body
  /-- R85. -/
  version : versionField (f.byte 2) = 1
  /-- R86. -/
  length : (lengthField (f.byte 1) (f.byte 2)).toNat = f.size
  /-- R87. -/
  header : E.ck8 f.headerBytes = f.byte 3

/-- `Decode` succeeds only on bytes that pass every check. -/
theorem accepted_of_decode {E : ChecksumEngine} {raw : List Byte} {p : DecodedPacket} (h : decode E raw = .ok p) :
    ∃ hlong : Config.lenMin ≤ raw.length, Accepted E ⟨raw, hlong⟩ p := by
  rcases decode_cases E raw with ⟨_, e⟩ | ⟨_, _, e⟩ | ⟨_, _, e⟩ | ⟨hwindow, hmagic, e⟩
  case inr.inr.inr =>
    obtain ⟨hlater, hp⟩ := decodeFrame_eq_ok.mp (e.symm.trans h)
    obtain ⟨htrailer, hversion, hlength, hheader⟩ := laterFailure_eq_none.mp hlater
    have hhead : raw.head? = some Config.magic := by
      by_contra hbad
      rw [magicFailure_eq, if_neg hbad] at hmagic
      cases hmagic
    exact ⟨hwindow.1, hp, hwindow.2, List.head?_eq_getElem?.symm.trans hhead, trailerFailure_eq_none.mp htrailer,
      versionFailure_eq_none.mp hversion, lengthFailure_eq_none.mp hlength, headerFailure_eq_none.mp hheader⟩
  all_goals exact nomatch e.symm.trans h

/-- `Decode'` succeeds only where it is `Decode`. -/
theorem decode_of_decodeBuffered {E : ChecksumEngine} {n : Nat} {stored : List Byte} {p : DecodedPacket}
    (h : decodeBuffered E n stored = .ok p) : n ≤ 511 ∧ decode E stored = .ok p := by
  by_cases hn : n ≤ 511
  · exact ⟨hn, (decodeBuffered_eq_decode E stored hn).symm.trans h⟩
  · unfold decodeBuffered at h
    rw [if_neg hn] at h
    cases hm : magicFailure stored <;> rw [hm] at h <;> cases h

/-- The payload of a frame has 13 bytes fewer than the frame (R106). -/
theorem extractPayload_length (raw : List Byte) : (extractPayload raw).length = raw.length - 13 := by
  unfold extractPayload
  rw [List.length_drop, List.length_take]
  show min (raw.length - 2) raw.length - 11 = _
  omega

/-- The registers of an accepted frame that its length decides: `f_length` and `f_plen` (R16, R19). -/
theorem Accepted.length_fields {E : ChecksumEngine} {f : Frame} {p : DecodedPacket} (h : Accepted E f p) :
    (DecodeOutcome.ok p).results.fLength.toNat = f.size ∧ (DecodeOutcome.ok p).results.fPlen.toNat = f.size - 13 := by
  have hshort : f.raw.length ≤ 511 := h.short
  rw [h.packet]
  refine ⟨h.length, ?_⟩
  show (BitVec.ofNat 9 (extractPayload f.raw).length).toNat = f.raw.length - 13
  rw [extractPayload_length, BitVec.toNat_ofNat]
  omega

/-- Every record of a frame has even ids and a command type that is a multiple of 32 (R54, R56). -/
theorem extractPacket_cleared_bits (f : Frame) :
    (extractPacket f).sourceId.toNat % 2 = 0 ∧ (extractPacket f).targetId.toNat % 2 = 0 ∧
      (extractPacket f).commandType.toNat % 32 = 0 := by
  refine ⟨?_, ?_, ?_⟩
  · exact (congrArg (· % 2) (idField_toNat (f.byte 4))).trans (Nat.mul_mod_right 2 _)
  · exact (congrArg (· % 2) (idField_toNat (f.byte 5))).trans (Nat.mul_mod_right 2 _)
  · exact (congrArg (· % 32) (commandTypeField_toNat (f.byte 8))).trans (Nat.mul_mod_right 32 _)

/-! ### What the invariant says of DONE -/

/-- The invariant in DONE with code 0: the buffer holds exactly one accepted frame of `cnt` bytes, and the result registers
are its image. -/
theorem State.Inv.accepted {s : State} (h : s.Inv) (hst : s.st = .done) (hstatus : s.res.status = 0) :
    ∃ (f : Frame) (p : DecodedPacket), s.res = (DecodeOutcome.ok p).results ∧ Accepted Config.engine f p ∧
      bufferedBytes s = some f.raw ∧ f.size = s.cnt.toNat ∧ ∀ i, i < s.cnt.toNat → memRead s i = f.raw[i]? := by
  obtain ⟨stored, hbuf, himage⟩ := h.done_image hst
  obtain ⟨p, hok⟩ := ok_of_status_eq_zero (himage ▸ hstatus)
  obtain ⟨hcnt, hdecode⟩ := decode_of_decodeBuffered hok
  obtain ⟨hlong, hacc⟩ := accepted_of_decode hdecode
  have hwritten : s.written = s.cnt.toNat := Nat.min_eq_left hcnt
  obtain ⟨hsize, hread⟩ := bufferedBytes_some hbuf
  rw [hwritten] at hsize hread
  exact ⟨⟨stored, hlong⟩, p, by rw [himage, hok], hacc, hbuf, hsize, hread⟩

/-- Item 4 of R24: the registers of a success, and the buffered bytes they are taken from (R16, R19, R20). -/
theorem State.Inv.success_facts {s : State} (h : s.Inv) (hst : s.st = .done) (hstatus : s.res.status = 0) :
    13 ≤ s.cnt.toNat ∧ s.cnt.toNat ≤ 511 ∧ s.res.fLength = s.cnt ∧ s.res.fVersion = 1 ∧
      s.res.fPlen.toNat = s.cnt.toNat - 13 ∧ s.res.infoA = 0 ∧ s.res.infoB = 0 ∧
      memRead s 0 = some 0x55 ∧ memRead s 3 = some s.res.fHck ∧
      memRead2 s (s.cnt.toNat - 2) = some s.res.fTrailer ∧
      ∃ raw, bufferedBytes s = some raw ∧ s.res.fHck = Config.engine.ck8 (raw.take 3) ∧
        s.res.fTrailer = Config.engine.ck16 (raw.take (s.cnt.toNat - 2)) := by
  obtain ⟨f, p, hres, hacc, hbuf, hsize, hread⟩ := h.accepted hst hstatus
  have hlen : f.raw.length = s.cnt.toNat := hsize
  have hlong : 13 ≤ s.cnt.toNat := hlen ▸ f.long
  have hshort : s.cnt.toNat ≤ 511 := hsize ▸ hacc.short
  have hbyte : ∀ i (hi : i < f.raw.length), memRead s i = some f.raw[i] := fun i hi =>
    (hread i (hlen ▸ hi)).trans (List.getElem?_eq_getElem hi)
  have hp := hacc.packet
  obtain ⟨hfLength, hfPlen⟩ := hacc.length_fields
  rw [← hres, hsize] at hfLength hfPlen
  have hversion : s.res.fVersion = 1 := by rw [hres, hp]; exact hacc.version
  have hhck : s.res.fHck = f.byte 3 := by rw [hres, hp]; rfl
  have htrailer : s.res.fTrailer = le16 f.trailerLow f.trailerHigh := by rw [hres, hp]; rfl
  have hread2 : memRead2 s (s.cnt.toNat - 2) = some (le16 f.trailerLow f.trailerHigh) := by
    rw [← hlen]
    refine memRead2_eq_some (hbyte _ (by omega)) ?_
    rw [show f.raw.length - 2 + 1 = f.raw.length - 1 by omega]
    exact hbyte _ (by omega)
  refine ⟨hlong, hshort, BitVec.eq_of_toNat_eq hfLength, hversion, hfPlen, by rw [hres]; rfl, by rw [hres]; rfl, ?magic,
    ?header, ?trailer, f.raw, hbuf, hhck.trans hacc.header.symm, ?ck16⟩
  case magic => exact (hread 0 (by omega)).trans hacc.magic
  case header => rw [hhck]; exact hbyte 3 (by omega)
  case trailer => rw [htrailer]; exact hread2
  case ck16 => rw [htrailer, ← hlen]; exact hacc.trailer

/-- Item 6 of R24: the bits that no field keeps are zero, in both control states (R54, R56). -/
theorem State.Inv.cleared_bits {s : State} (h : s.Inv) :
    s.res.fSid.toNat % 2 = 0 ∧ s.res.fTid.toNat % 2 = 0 ∧ s.res.fCtype.toNat % 32 = 0 := by
  cases hst : s.st with
  | recv => rw [h.recv_cleared hst]; exact ⟨rfl, rfl, rfl⟩
  | done =>
    by_cases hstatus : s.res.status = 0
    · obtain ⟨f, p, hres, hacc, _⟩ := h.accepted hst hstatus
      rw [hres, hacc.packet]
      exact extractPacket_cleared_bits f
    · obtain ⟨stored, _, himage⟩ := h.done_image hst
      rw [himage] at hstatus ⊢
      rw [results_of_status_ne_zero hstatus]
      exact ⟨rfl, rfl, rfl⟩

/-- Settles O4, item by item. -/
theorem invariantGivesTheListedFacts : Obligations.InvariantGivesTheListedFacts := by
  intro s h
  refine ⟨h.cnt_le, h.recv_cleared, fun hst hstatus => ?failure, h.success_facts, h.cleared_bits⟩
  obtain ⟨stored, _, himage⟩ := h.done_image hst
  rw [himage] at hstatus ⊢
  exact results_of_status_ne_zero hstatus

end Sys2Proof.Machine
end

section
/-! A frame served from an idle block: its outcome depends on its bytes only (R27), its payload is read back in place (R70),
and the recipe's frame (95_test_vectors.md section 2.1) is served whole. -/

namespace Sys2Proof.Machine

/-! ### What a served frame shows -/

/-- Settles O28: both blocks record the same outcome over the same received bytes. -/
theorem outcomeDependsOnTheFrameOnly : Obligations.OutcomeDependsOnTheFrameOnly := by
  intro raw s u hs hu
  have hpushedS := hs.holds_pushBytes raw
  have hpushedU := hu.holds_pushBytes raw
  have hcnt : (pushBytes raw s).cnt = (pushBytes raw u).cnt :=
    BitVec.eq_of_toNat_eq (hpushedS.count.trans hpushedU.count.symm)
  have hread : ∀ a, memRead (pushBytes raw s) a = memRead (pushBytes raw u) a := fun a =>
    (holds_memRead hpushedS a).trans (holds_memRead hpushedU a).symm
  exact ⟨_, _, exec_frame_of_idle hs raw, exec_frame_of_idle hu raw, rfl, hcnt, rfl, readPort_congr rfl rfl hread⟩

/-- The port of a block that has just accepted a frame shows the frame's payload in place, byte for byte, and is shut
beyond it (R70). -/
theorem Accepted.readPort_recordOutcome {E : ChecksumEngine} {f : Frame} {p : DecodedPacket} (h : Accepted E f p)
    {s : State} (hs : Holds f.raw s) (i : PayloadIndex) :
    readPort (recordOutcome (.ok p) s) i =
      if i.toNat < f.size - 13 then some (f.raw.getD (11 + i.toNat) 0, true) else some (0, false) := by
  have hshort : f.raw.length ≤ 511 := h.short
  obtain ⟨_, hplen⟩ := h.length_fields
  by_cases hi : i.toNat < f.size - 13
  · have hi' : i.toNat < f.raw.length - 13 := hi
    have hread : memRead (recordOutcome (.ok p) s) (11 + i.toNat) = some (f.raw.getD (11 + i.toNat) 0) := by
      rw [memRead_congr (recordOutcome_cnt _ _) (recordOutcome_mem _ _), holds_memRead hs,
        List.take_of_length_le hshort, List.getD_eq_getElem?_getD, List.getElem?_eq_getElem (by omega)]
      rfl
    rw [if_pos hi]
    exact readPort_open ⟨rfl, rfl, hplen ▸ hi⟩ hread
  · rw [if_neg hi]
    exact readPort_shut (fun hopen => hi (hplen ▸ hopen.2.2))

/-! ### The recipe's frame -/

/-- The header bytes 0, 1 and 2 of the recipe for a frame of `n` bytes: magic, length and version (R52). -/
def recipeStart (n : Nat) : List Byte := [0x55, BitVec.ofNat 8 (n % 256), BitVec.ofNat 8 (4 + n / 256)]

/-- The recipe's frame before its trailer: the header with its checksum, then the body. -/
def recipeCovered (E : ChecksumEngine) (B : List Byte) : List Byte :=
  recipeStart (B.length + 6) ++ [E.ck8 (recipeStart (B.length + 6))] ++ B

/-- The trailer bytes of a checksum, low byte first (R58). -/
def trailerBytes (c : BitVec 16) : List Byte := [BitVec.ofNat 8 (c.toNat % 256), BitVec.ofNat 8 (c.toNat / 256)]

/-- The recipe's frame is what its trailer covers, and the trailer. -/
theorem recipeFrame_eq (E : ChecksumEngine) (B : List Byte) :
    recipeFrame E B = recipeCovered E B ++ trailerBytes (E.ck16 (recipeCovered E B)) := rfl

theorem recipeCovered_length (E : ChecksumEngine) (B : List Byte) : (recipeCovered E B).length = B.length + 4 := by
  simp [recipeCovered, recipeStart]

theorem recipeFrame_length (E : ChecksumEngine) (B : List Byte) : (recipeFrame E B).length = B.length + 6 := by
  rw [recipeFrame_eq, List.length_append, recipeCovered_length]; rfl

/-- The bytes the trailer covers are the frame less its last two. -/
theorem recipeFrame_take_covered (E : ChecksumEngine) (B : List Byte) :
    (recipeFrame E B).take (B.length + 4) = recipeCovered E B := by
  rw [recipeFrame_eq, ← recipeCovered_length E B, List.take_left]

/-- The bytes the header checksum covers are the frame's first three. -/
theorem recipeFrame_take_start (E : ChecksumEngine) (B : List Byte) :
    (recipeFrame E B).take 3 = recipeStart (B.length + 6) := rfl

/-- The body stands in the frame from byte 4 on. -/
theorem recipeFrame_getD_body (E : ChecksumEngine) {B : List Byte} {i : Nat} (h : i < B.length) :
    (recipeFrame E B).getD (4 + i) 0 = B.getD i 0 := by
  rw [recipeFrame_eq, List.getD_append _ _ _ _ (by rw [recipeCovered_length]; omega), recipeCovered,
    List.getD_append_right _ _ _ _ (by simp [recipeStart])]
  simp [recipeStart]

/-- The same as a number. -/
theorem byteAt_recipeFrame_body (E : ChecksumEngine) {B : List Byte} {i : Nat} (h : i < B.length) :
    byteAt (recipeFrame E B) (4 + i) = byteAt B i :=
  congrArg BitVec.toNat (recipeFrame_getD_body E h)

/-- The frame's trailer is the checksum of what it covers (R58). -/
theorem storedTrailer_recipeFrame (E : ChecksumEngine) (B : List Byte) :
    storedTrailer (recipeFrame E B) = (E.ck16 (recipeCovered E B)).toNat := by
  have hbyte : ∀ k, byteAt (recipeFrame E B) (B.length + 4 + k) =
      byteAt (trailerBytes (E.ck16 (recipeCovered E B))) k := fun k => by
    unfold byteAt
    rw [recipeFrame_eq, List.getD_append_right _ _ _ _ (by rw [recipeCovered_length]; omega), recipeCovered_length,
      Nat.add_sub_cancel_left]
  have hlt := (E.ck16 (recipeCovered E B)).isLt
  unfold storedTrailer
  rw [recipeFrame_length, show B.length + 6 - 2 = B.length + 4 + 0 by omega,
    show B.length + 6 - 1 = B.length + 4 + 1 by omega, hbyte, hbyte]
  simp only [byteAt, trailerBytes, List.getD_cons_zero, List.getD_cons_succ, BitVec.toNat_ofNat]
  omega

/-- The recipe's length and version bytes as numbers, for a legal length (R52). -/
theorem byteAt_recipeFrame_start (E : ChecksumEngine) {B : List Byte} (h : B.length ≤ 505) :
    byteAt (recipeFrame E B) 1 = (B.length + 6) % 256 ∧ byteAt (recipeFrame E B) 2 = 4 + (B.length + 6) / 256 := by
  constructor
  · show (BitVec.ofNat 8 ((B.length + 6) % 256)).toNat = _
    rw [BitVec.toNat_ofNat]; omega
  · show (BitVec.ofNat 8 (4 + (B.length + 6) / 256)).toNat = _
    rw [BitVec.toNat_ofNat]; omega

/-- The recipe's frame is accepted, under any checksum engine (R91). -/
theorem decode_recipeFrame (E : ChecksumEngine) {B : List Byte} (h7 : 7 ≤ B.length) (h505 : B.length ≤ 505) :
    ∃ p, decode E (recipeFrame E B) = .ok p := by
  have hlen := recipeFrame_length E B
  obtain ⟨hb1, hb2⟩ := byteAt_recipeFrame_start E h505
  have hwindow : 13 ≤ (recipeFrame E B).length ∧ (recipeFrame E B).length ≤ 511 := by omega
  refine ⟨_, (decode_frame E rfl hwindow).trans (decodeFrame_eq_ok.mpr ⟨laterFailure_eq_none.mpr ?_, rfl⟩)⟩
  refine ⟨?trailer, ?version, ?length, ?header⟩
  case trailer =>
    rw [trailerFailure_eq, if_neg]
    rw [hlen, show B.length + 6 - 2 = B.length + 4 by omega, recipeFrame_take_covered, storedTrailer_recipeFrame]
    exact not_not.mpr rfl
  case version => rw [versionFailure_eq, if_neg]; omega
  case length => rw [lengthFailure_eq, if_neg]; omega
  case header => rw [headerFailure_eq, if_neg]; exact not_not.mpr rfl

/-- The transit and command fields of a frame, as numbers of its bytes 4 to 10 (R54 to R56, R98 to R105). -/
theorem extractPacket_field_numbers {raw : List Byte} (h : Config.lenMin ≤ raw.length) :
    (extractPacket ⟨raw, h⟩).sourceKind.toNat = byteAt raw 4 / 32 ∧
      (extractPacket ⟨raw, h⟩).sourceId.toNat = 2 * (byteAt raw 4 / 2 % 8) ∧
      (extractPacket ⟨raw, h⟩).targetKind.toNat = byteAt raw 5 / 32 ∧
      (extractPacket ⟨raw, h⟩).targetId.toNat = 2 * (byteAt raw 5 / 2 % 8) ∧
      (extractPacket ⟨raw, h⟩).sequenceNumber.toNat = byteAt raw 6 + 256 * byteAt raw 7 ∧
      (extractPacket ⟨raw, h⟩).commandType.toNat = 32 * (byteAt raw 8 / 32) ∧
      (extractPacket ⟨raw, h⟩).commandSet.toNat = byteAt raw 9 ∧
      (extractPacket ⟨raw, h⟩).commandId.toNat = byteAt raw 10 := by
  have hbyte := frameByte_toNat h
  refine ⟨?skind, ?sid, ?tkind, ?tid, ?seq, ?ctype, hbyte 9, hbyte 10⟩
  case skind => exact (kindField_toNat _).trans (by rw [hbyte]; rfl)
  case sid => exact (idField_toNat _).trans (by rw [hbyte]; rfl)
  case tkind => exact (kindField_toNat _).trans (by rw [hbyte]; rfl)
  case tid => exact (idField_toNat _).trans (by rw [hbyte]; rfl)
  case seq => exact (le16_toNat _ _).trans (by rw [hbyte, hbyte]; rfl)
  case ctype => exact (commandTypeField_toNat _).trans (by rw [hbyte]; rfl)

/-- The same fields of the recipe's frame, as numbers of its body's bytes. -/
theorem extractPacket_recipeFrame (E : ChecksumEngine) {B : List Byte} (h7 : 7 ≤ B.length)
    (h : Config.lenMin ≤ (recipeFrame E B).length) :
    (extractPacket ⟨recipeFrame E B, h⟩).sourceKind.toNat = byteAt B 0 / 32 ∧
      (extractPacket ⟨recipeFrame E B, h⟩).sourceId.toNat = 2 * (byteAt B 0 / 2 % 8) ∧
      (extractPacket ⟨recipeFrame E B, h⟩).targetKind.toNat = byteAt B 1 / 32 ∧
      (extractPacket ⟨recipeFrame E B, h⟩).targetId.toNat = 2 * (byteAt B 1 / 2 % 8) ∧
      (extractPacket ⟨recipeFrame E B, h⟩).sequenceNumber.toNat = byteAt B 2 + 256 * byteAt B 3 ∧
      (extractPacket ⟨recipeFrame E B, h⟩).commandType.toNat = 32 * (byteAt B 4 / 32) ∧
      (extractPacket ⟨recipeFrame E B, h⟩).commandSet.toNat = byteAt B 5 ∧
      (extractPacket ⟨recipeFrame E B, h⟩).commandId.toNat = byteAt B 6 := by
  have hbody : ∀ i < 7, byteAt (recipeFrame E B) (4 + i) = byteAt B i := fun i hi =>
    byteAt_recipeFrame_body E (Nat.lt_of_lt_of_le hi h7)
  have hfields := extractPacket_field_numbers h
  rwa [hbody 0 (by decide), hbody 1 (by decide), hbody 2 (by decide), hbody 3 (by decide), hbody 4 (by decide),
    hbody 5 (by decide), hbody 6 (by decide)] at hfields

/-- Settles O30: the recipe's frame is accepted, so each register is the one an accepted frame of these bytes has, and the
bytes are those of `B`. -/
theorem recipeFrameIsServedWhole : Obligations.RecipeFrameIsServedWhole := by
  intro B s h7 h505 hidle
  obtain ⟨p, hdecode⟩ := decode_recipeFrame Config.engine h7 h505
  obtain ⟨hlong, hacc⟩ := accepted_of_decode hdecode
  have hpushed := hidle.holds_pushBytes (recipeFrame Config.engine B)
  have hlen := recipeFrame_length Config.engine B
  have hexec := exec_frame_of_idle hidle (recipeFrame Config.engine B)
  rw [hdecode] at hexec
  obtain ⟨hfLength, hfPlen⟩ := hacc.length_fields
  obtain ⟨hskind, hsid, htkind, htid, hseq, hctype, hcset, hcid⟩ := extractPacket_recipeFrame Config.engine h7 hlong
  rw [← hacc.packet] at hskind hsid htkind htid hseq hctype hcset hcid
  refine ⟨_, hexec, rfl, ?perr, ?cnt, rfl, rfl, rfl, hfLength.trans hlen, ?version, ?hck, ?trailer, hskind, hsid, htkind,
    htid, hseq, hctype, hcset, hcid, ?plen, ?port⟩
  case perr => rw [recordOutcome_perr, pushBytes_perr _ hidle.1]
  case cnt => rw [recordOutcome_cnt, hpushed.count, hlen]; omega
  case version => rw [recordOutcome_res, hacc.packet]; exact hacc.version
  case hck => rw [recordOutcome_res, hacc.packet]; exact hacc.header.symm
  case trailer =>
    rw [recordOutcome_res, hacc.packet, show B.length + 4 = (recipeFrame Config.engine B).length - 2 by omega]
    exact hacc.trailer
  case plen =>
    rw [recordOutcome_res, hfPlen]
    show (recipeFrame Config.engine B).length - 13 = _
    omega
  case port =>
    intro i
    rw [hacc.readPort_recordOutcome hpushed]
    show (if i.toNat < (recipeFrame Config.engine B).length - 13 then
      some ((recipeFrame Config.engine B).getD (11 + i.toNat) 0, true) else _) = _
    rw [show (recipeFrame Config.engine B).length - 13 = B.length - 7 by omega]
    by_cases hi : i.toNat < B.length - 7
    · rw [show 11 + i.toNat = 4 + (7 + i.toNat) by omega, recipeFrame_getD_body Config.engine (by omega)]
    · rw [if_neg hi, if_neg hi]

end Sys2Proof.Machine
end

section
/-! The frame buffer as a host sees it: the bytes `END` decodes are the written range (R36, R37), and the bytes an earlier
frame left beyond it show in nothing (R27, R136). -/

namespace Sys2Proof.Machine

/-! ### What can be read of the buffer -/

/-- Where there are buffered bytes, `MemRead` reads exactly those: beyond the written range neither has a byte. -/
theorem memRead_of_bufferedBytes {s : State} {stored : List Byte} (h : bufferedBytes s = some stored) (a : Nat) :
    memRead s a = stored[a]? := by
  obtain ⟨hlen, hread⟩ := bufferedBytes_some h
  by_cases ha : a < s.written
  · exact hread a ha
  · rw [memRead_of_ge (by omega), List.getElem?_eq_none (by omega)]

/-- The counter after a `PUSH` in RECV, from any value (R67). -/
theorem pushByte_cnt_eq (b : Byte) {s : State} (hst : s.st = .recv) :
    (pushByte b s).cnt =
      if s.cnt.toNat < 511 then s.cnt + 1 else if s.cnt.toNat = 511 then 512 else s.cnt := by
  rcases pushByte_cases b s with ⟨hdone, _⟩ | ⟨hroom, _, e⟩ | ⟨_, hfull, e⟩ | ⟨_, hsat, e⟩
  · exact nomatch hst.symm.trans hdone
  · have hroom' : s.cnt.toNat < 511 := hroom
    rw [e, if_pos hroom']
  · have hfull' : s.cnt.toNat = 511 := hfull
    rw [e, if_neg (by omega), if_pos hfull']
  · have hsat' : 512 ≤ s.cnt.toNat := hsat
    rw [e, if_neg (by omega), if_neg (by omega)]

/-- What can be read after a `PUSH` in RECV: the pushed byte at index `cnt` while there is room, and whatever could be read
before. A byte that an earlier frame left at any index is not among them (R36, R67). -/
theorem memRead_pushByte (b : Byte) {s : State} (hst : s.st = .recv) (a : Nat) :
    memRead (pushByte b s) a = if a = s.cnt.toNat ∧ a < 511 then some b else memRead s a := by
  have hold : s.written = min s.cnt.toNat 511 := rfl
  rcases pushByte_cases b s with ⟨hdone, _⟩ | ⟨hroom, _, e⟩ | ⟨_, hfull, e⟩ | ⟨_, hsat, e⟩
  · exact nomatch hst.symm.trans hdone
  · have hroom' : s.cnt.toNat < 511 := hroom
    have hnew : (pushByte b s).written = s.cnt.toNat + 1 := by
      show min (pushByte b s).cnt.toNat 511 = _
      rw [pushByte_cnt_eq b hst, if_pos hroom']
      bv_omega
    rcases Nat.lt_trichotomy a s.cnt.toNat with hlt | heq | hgt
    · rw [if_neg (by omega), memRead_of_lt (by omega), memRead_of_lt (by omega), lookup_pushByte_other b (.inl hlt.ne)]
    · rw [if_pos (by omega), memRead_of_lt (by omega), e, heq]
      exact lookup_store_same _ _ _
    · rw [if_neg (by omega), memRead_of_ge (by omega), memRead_of_ge (by omega)]
  · have hfull' : s.cnt.toNat = 511 := hfull
    have hnew : (pushByte b s).written = 511 := by rw [e]; rfl
    rw [if_neg (by omega)]
    by_cases ha : a < 511
    · rw [memRead_of_lt (by omega), memRead_of_lt (by omega), e]
    · rw [memRead_of_ge (by omega), memRead_of_ge (by omega)]
  · have hsat' : 512 ≤ s.cnt.toNat := hsat
    rw [e, if_neg (by omega)]

/-- With the counter at zero nothing can be read, whatever the buffer holds: every byte is stale then (R36). -/
theorem memRead_of_cnt_zero {s : State} (h : s.cnt = 0) (a : Nat) : memRead s a = none := by
  have hcnt : s.cnt.toNat = 0 := by rw [h]; rfl
  have hwritten := written_le_cnt s
  exact memRead_of_ge (by omega)

/-- Two blocks with the counter at zero read alike. -/
theorem memRead_eq_of_cnt_zero {s t : State} (hs : s.cnt = 0) (ht : t.cnt = 0) (a : Nat) : memRead s a = memRead t a :=
  (memRead_of_cnt_zero hs a).trans (memRead_of_cnt_zero ht a).symm

/-! ### States that agree but for stale bytes -/

/-- `END` finds the same bytes in both (R36). -/
theorem AgreeButStaleBytes.same_bufferedBytes {s t : State} (h : AgreeButStaleBytes s t) :
    bufferedBytes s = bufferedBytes t := by
  obtain ⟨_, hcnt, _, _, _, _, hread⟩ := h
  unfold bufferedBytes
  rw [written_congr hcnt]
  exact memReadBytes_congr hread 0 _

/-- A host sees the same of both (R22). -/
theorem AgreeButStaleBytes.same_outputs {s t : State} (h : AgreeButStaleBytes s t) : SameOutputs s t := by
  obtain ⟨hst, hcnt, hres, hperr, _, _, hread⟩ := h
  exact ⟨hst, hcnt, hres, hperr, congrArg ControlState.bit hst, readPort_congr hst hres hread⟩

/-- A `PUSH` in RECV keeps the agreement: the byte that enters the written range is the pushed one in both (R67). -/
theorem AgreeButStaleBytes.after_pushByte {s t : State} (h : AgreeButStaleBytes s t) (hrecv : s.st = .recv) (b : Byte) :
    AgreeButStaleBytes (pushByte b s) (pushByte b t) := by
  obtain ⟨hst, hcnt, hres, hperr, hanswer, hinputs, hread⟩ := h
  have hrecv' : t.st = .recv := hst.symm.trans hrecv
  refine ⟨?st, ?cnt, ?res, ?perr, ?answer, ?inputs, fun a => ?read⟩
  case st => rw [pushByte_st, pushByte_st, hst]
  case cnt => rw [pushByte_cnt_eq b hrecv, pushByte_cnt_eq b hrecv', hcnt]
  case res => rw [pushByte_res, pushByte_res, hres]
  case perr => rw [pushByte_perr b hrecv, pushByte_perr b hrecv', hperr]
  case answer => rw [pushByte_answer, pushByte_answer, hanswer]
  case inputs => rw [pushByte_inputs, pushByte_inputs, hinputs]
  case read => rw [memRead_pushByte b hrecv, memRead_pushByte b hrecv', hcnt, hread]

/-- A run of `PUSH` commands in RECV keeps the agreement. -/
theorem AgreeButStaleBytes.after_pushBytes {s t : State} (h : AgreeButStaleBytes s t) (hrecv : s.st = .recv)
    (bs : List Byte) : AgreeButStaleBytes (pushBytes bs s) (pushBytes bs t) := by
  induction bs generalizing s t with
  | nil => exact h
  | cons b bs ih => exact ih (h.after_pushByte hrecv b) (by rw [pushByte_st, hrecv])

/-- Two states that agree but for stale bytes answer an instruction alike, with next states that agree so again. -/
theorem AgreeButStaleBytes.after_exec {i : Instr} {s t s' : State} (h : AgreeButStaleBytes s t)
    (hexec : exec i s = .next s') : ∃ t', exec i t = .next t' ∧ AgreeButStaleBytes s' t' := by
  have ⟨hst, hcnt, hres, hperr, hanswer, hinputs, hread⟩ := h
  cases exec_effect hexec with
  | nothing => exact ⟨t, rfl, h⟩
  | received b hrecv => exact ⟨_, rfl, h.after_pushByte hrecv b⟩
  | @recorded _ bytes stored hi hrecv hbuf =>
    have hpushed := h.after_pushBytes hrecv bytes
    have hbuf' := hpushed.same_bufferedBytes.symm.trans hbuf
    obtain ⟨_, hcnt', _, hperr', hanswer', hinputs', hread'⟩ := hpushed
    refine ⟨_, (hi.exec_eq t).trans (closeFrame_recv _ (by rw [pushBytes_st, ← hst, hrecv]) hbuf'), ?_⟩
    rw [hcnt']
    exact ⟨rfl, hcnt', rfl, hperr', hanswer', hinputs', hread'⟩
  | released hdone =>
    refine ⟨_, congrArg Host.Outcome.next (acknowledge_done (hst.symm.trans hdone)), ?_⟩
    exact ⟨rfl, rfl, rfl, hperr, hanswer, hinputs, memRead_eq_of_cnt_zero rfl rfl⟩
  | reset =>
    exact ⟨_, rfl, rfl, rfl, rfl, rfl, hanswer, hinputs, memRead_eq_of_cnt_zero rfl rfl⟩
  | misused hi => exact ⟨_, exec_misused (hst ▸ hi), hst, hcnt, hres, rfl, hanswer, hinputs, hread⟩
  | answered hi _ =>
    obtain ⟨a, hnext, hsame⟩ := exec_answersOnly hi hexec
    rw [hnext]
    exact ⟨_, hsame t hst hres hread, hst, hcnt, hres, hperr, rfl, hinputs, hread⟩

/-! ### The obligations -/

/-- Settles O21: the next states agree but for stale bytes, and such states show the same. -/
theorem staleBufferBytesNeverShow : Obligations.StaleBufferBytesNeverShow := by
  intro i s t s' hagree hexec
  obtain ⟨t', hexec', hagree'⟩ := hagree.after_exec hexec
  exact ⟨t', hexec', hagree', hagree'.same_outputs⟩

/-- Settles O8: a full written range can be buffered, and the buffered bytes are what can be read. -/
theorem bufferedBytesAreTheWrittenOnes : Obligations.BufferedBytesAreTheWrittenOnes := by
  intro s hwritten
  obtain ⟨stored, hbuf⟩ := bufferedBytes_isSome hwritten
  exact ⟨stored, hbuf, (bufferedBytes_some hbuf).1, memRead_of_bufferedBytes hbuf⟩

end Sys2Proof.Machine
end

section
/-! The encodings at the block's inputs (R45 to R47, R60): the command word and its table, the assembler's hex string, and
the decoder as the inverse of the encoder. -/

namespace Sys2Proof.Machine

/-! ### The command word and its table -/

/-- Of a command word, the table's mask leaves `op` (R45, R46). -/
theorem commandWord_and_mask (op : BitVec 2) (data : Byte) : commandWord op data &&& 0x300 = commandWord op 0 := by
  show (op ++ data) &&& (BitVec.allOnes 2 ++ 0#8) = _
  rw [BitVec.and_append, BitVec.and_allOnes, BitVec.and_zero]
  rfl

/-- A command word is its two fields (R45). -/
theorem commandWord_fields (w : CommandWord) : commandWord (opField w) (dataField w) = w := by
  have hw := w.isLt
  apply BitVec.eq_of_toNat_eq
  rw [commandWord_toNat]
  simp only [opField, dataField, BitVec.extractLsb'_toNat, Nat.shiftRight_eq_div_pow]
  omega

/-- The mask leaves `op` of any command word. -/
theorem and_mask_eq (w : CommandWord) : w &&& 0x300 = commandWord (opField w) 0 := by
  have h := commandWord_and_mask (opField w) (dataField w)
  rwa [commandWord_fields] at h

/-- A word that matches the row of `op` is that operation's word for its own `data` bits. -/
theorem eq_commandWord_of_and_mask {w : CommandWord} {op : BitVec 2} (h : w &&& 0x300 = commandWord op 0) :
    w = commandWord op (dataField w) := by
  have hop : opField w = op := by
    rw [← opField_commandWord (opField w) 0, ← and_mask_eq, h, opField_commandWord]
  rw [← hop, commandWord_fields]

/-- The four values of `op` (R46, R47). -/
theorem decodeCommand_cases (w : CommandWord) :
    decodeCommand w = .nop ∨ (∃ b, decodeCommand w = .push b) ∨ decodeCommand w = .endFrame ∨ decodeCommand w = .ack := by
  unfold decodeCommand
  split
  · exact .inl rfl
  · split
    · exact .inr (.inl ⟨_, rfl⟩)
    · split
      · exact .inr (.inr (.inl rfl))
      · exact .inr (.inr (.inr rfl))

/-- Whether a row of the table covers a word is decided by the word's `op`. -/
theorem covers_eq {r : CommandRow} (hr : r ∈ commandTable) (w : CommandWord) :
    r.covers w = r.covers (commandWord (opField w) 0) := by
  have hmask : ∀ r ∈ commandTable, r.mask = 0x300 := by decide
  rw [CommandRow.covers, CommandRow.covers, hmask r hr, commandWord_and_mask, and_mask_eq]

/-- Every command word matches exactly one row (R46). -/
theorem commandTable_covers_once (w : CommandWord) : (commandTable.filter (fun r => r.covers w)).length = 1 := by
  have hrows : ∀ op : BitVec 2, (commandTable.filter (fun r => r.covers (commandWord op 0))).length = 1 := by decide
  rw [List.filter_congr fun r hr => covers_eq hr w, hrows]

/-- Settles O48: a word that matches a row is the row's command word, whatever its `data` bits. -/
theorem commandWordsDecodeByTheirRow : Obligations.CommandWordsDecodeByTheirRow := by
  intro w
  refine ⟨commandTable_covers_once w, ?nop, ?push, ?endFrame, ?ack, ?rst, ?rdpl, rfl⟩
  case nop =>
    intro h
    rw [eq_commandWord_of_and_mask (op := 0b00) h, decodeCommand_nop]
  case push =>
    intro h
    have hw := eq_commandWord_of_and_mask (op := 0b01) h
    refine ⟨dataField w, (congrArg decodeCommand hw).trans (decodeCommand_push _), ?_⟩
    exact (congrArg BitVec.toNat hw).trans ((commandWord_toNat _ _).trans (Nat.add_comm _ _))
  case endFrame =>
    intro h
    rw [eq_commandWord_of_and_mask (op := 0b10) h, decodeCommand_end]
  case ack =>
    intro h
    rw [eq_commandWord_of_and_mask (op := 0b11) h, decodeCommand_ack]
  case rst => rcases decodeCommand_cases w with h | ⟨b, h⟩ | h | h <;> rw [h] <;> exact nofun
  case rdpl => rcases decodeCommand_cases w with h | ⟨b, h⟩ | h | h <;> rw [h] <;> exact fun _ => nofun

/-! ### The hex string -/

/-- A character that R60 takes for a hex digit. -/
def IsHexDigit (c : Char) : Prop := ('0' ≤ c ∧ c ≤ '9') ∨ ('a' ≤ c ∧ c ≤ 'f') ∨ ('A' ≤ c ∧ c ≤ 'F')

/-- The order of characters is that of their codes. -/
theorem char_le_iff_toNat {c d : Char} : c ≤ d ↔ c.toNat ≤ d.toNat := by
  rw [Char.le_def, UInt32.le_iff_toNat_le]
  rfl

/-- The digits `0` to `9`. -/
theorem hexValue_decimal {c : Char} (h : '0' ≤ c ∧ c ≤ '9') : hexValue c = some (c.toNat - '0'.toNat) := by
  rw [char_le_iff_toNat, char_le_iff_toNat] at h
  exact if_pos h

/-- The digits `a` to `f`. -/
theorem hexValue_lower {c : Char} (h : 'a' ≤ c ∧ c ≤ 'f') : hexValue c = some (10 + (c.toNat - 'a'.toNat)) := by
  rw [char_le_iff_toNat, char_le_iff_toNat] at h
  obtain ⟨hlow : 97 ≤ c.toNat, hhigh : c.toNat ≤ 102⟩ := h
  have hvalue : c.toNat - 87 = 10 + (c.toNat - 97) := by omega
  rw [hexValue, if_neg (by omega), if_pos ⟨hlow, hhigh⟩, hvalue]
  rfl

/-- The digits `A` to `F`. -/
theorem hexValue_upper {c : Char} (h : 'A' ≤ c ∧ c ≤ 'F') : hexValue c = some (10 + (c.toNat - 'A'.toNat)) := by
  rw [char_le_iff_toNat, char_le_iff_toNat] at h
  obtain ⟨hlow : 65 ≤ c.toNat, hhigh : c.toNat ≤ 70⟩ := h
  have hvalue : c.toNat - 55 = 10 + (c.toNat - 65) := by omega
  rw [hexValue, if_neg (by omega), if_neg (by omega), if_pos ⟨hlow, hhigh⟩, hvalue]
  rfl

/-- A value is given to hex digits only, and it is below 16. -/
theorem isHexDigit_of_hexValue {c : Char} {v : Nat} (h : hexValue c = some v) : IsHexDigit c ∧ v < 16 := by
  simp only [IsHexDigit, char_le_iff_toNat]
  simp only [hexValue] at h
  split at h
  next hr => exact ⟨.inl hr, by cases h; omega⟩
  next =>
    split at h
    next hr => exact ⟨.inr (.inl hr), by cases h; omega⟩
    next =>
      split at h
      next hr => exact ⟨.inr (.inr hr), by cases h; omega⟩
      next => cases h

/-- Exactly the hex digits have a value. -/
theorem exists_hexValue_iff {c : Char} : (∃ v, hexValue c = some v) ↔ IsHexDigit c := by
  refine ⟨fun ⟨_, h⟩ => (isHexDigit_of_hexValue h).1, ?_⟩
  rintro (h | h | h)
  · exact ⟨_, hexValue_decimal h⟩
  · exact ⟨_, hexValue_lower h⟩
  · exact ⟨_, hexValue_upper h⟩

/-- Two characters and a rest spell a byte and the rest's bytes, where both are digits and the rest spells bytes. -/
theorem hexPairs_cons_cons_eq_some {hi lo : Char} {rest : List Char} {bytes : List Byte} :
    hexPairs (hi :: lo :: rest) = some bytes ↔ ∃ h l bs, hexValue hi = some h ∧ hexValue lo = some l ∧
      hexPairs rest = some bs ∧ bytes = BitVec.ofNat 8 (16 * h + l) :: bs := by
  rw [hexPairs]
  split
  next h l bs hhi hlo hrest => simp [hhi, hlo, hrest, eq_comm]
  next hnone =>
    refine iff_of_false nofun ?_
    rintro ⟨h, l, bs, hhi, hlo, hrest, _⟩
    exact hnone h l bs hhi hlo hrest

/-- The characters that spell bytes: an even number of hex digits (R60). -/
theorem exists_hexPairs_iff (cs : List Char) :
    (∃ bytes, hexPairs cs = some bytes) ↔ cs.length % 2 = 0 ∧ ∀ c ∈ cs, IsHexDigit c := by
  induction cs using List.twoStepInduction with
  | nil => simp [hexPairs]
  | singleton c => simp [hexPairs]
  | cons_cons hi lo rest ih _ =>
    have hlen : (hi :: lo :: rest).length % 2 = rest.length % 2 := Nat.add_mod_right rest.length 2
    rw [hlen, List.forall_mem_cons, List.forall_mem_cons, ← exists_hexValue_iff, ← exists_hexValue_iff]
    simp only [hexPairs_cons_cons_eq_some]
    constructor
    · rintro ⟨_, h, l, bs, hhi, hlo, hrest, _⟩
      obtain ⟨heven, hdigits⟩ := ih.mp ⟨bs, hrest⟩
      exact ⟨heven, ⟨h, hhi⟩, ⟨l, hlo⟩, hdigits⟩
    · rintro ⟨heven, ⟨h, hhi⟩, ⟨l, hlo⟩, hdigits⟩
      obtain ⟨bs, hrest⟩ := ih.mpr ⟨heven, hdigits⟩
      exact ⟨_, h, l, bs, hhi, hlo, hrest, rfl⟩

/-- Which bytes are spelled: half as many as there are digits, byte `j` by the digits `2j` and `2j + 1` (R60). -/
theorem hexPairs_spells {cs : List Char} {bytes : List Byte} (h : hexPairs cs = some bytes) :
    2 * bytes.length = cs.length ∧ ∀ j, j < bytes.length → ∃ hi lo,
      cs[2 * j]?.bind hexValue = some hi ∧ cs[2 * j + 1]?.bind hexValue = some lo ∧ byteAt bytes j = 16 * hi + lo := by
  induction cs using List.twoStepInduction generalizing bytes with
  | nil => cases h; exact ⟨rfl, nofun⟩
  | singleton c => cases h
  | cons_cons c d rest ih _ =>
    obtain ⟨hi, lo, bs, hc, hd, hrest, rfl⟩ := hexPairs_cons_cons_eq_some.mp h
    obtain ⟨hlen, hbytes⟩ := ih hrest
    refine ⟨by simp only [List.length_cons]; omega, fun j hj => ?_⟩
    cases j with
    | zero =>
      have hhi := (isHexDigit_of_hexValue hc).2
      have hlo := (isHexDigit_of_hexValue hd).2
      refine ⟨hi, lo, hc, hd, ?_⟩
      show (BitVec.ofNat 8 (16 * hi + lo)).toNat = _
      rw [BitVec.toNat_ofNat, Nat.mod_eq_of_lt (by omega)]
    | succ j => exact hbytes j (Nat.lt_of_succ_lt_succ hj)

/-- A line whose text spells bytes is a `FRAME` of those bytes. -/
theorem decodeInput_assembly_ok {text : List Char} {bytes : List Byte} (h : hexPairs (stripSpaces text) = some bytes) :
    decodeInput (.assembly text) = .ok (.frame bytes) := by
  simp [decodeInput, parseHex, h]

/-- A line whose text spells no bytes is refused (R133). -/
theorem decodeInput_assembly_malformed {text : List Char} (h : ¬ ∃ bytes, hexPairs (stripSpaces text) = some bytes) :
    decodeInput (.assembly text) = .error .malformedHexInput := by
  have hnone : hexPairs (stripSpaces text) = none := Option.eq_none_iff_forall_not_mem.mpr (not_exists.mp h)
  simp [decodeInput, parseHex, hnone]

/-- The stripped character, the code 0x20, is the space (90_conflicts.md C8). -/
theorem stripSpaces_eq (text : List Char) : stripSpaces text = text.filter (fun c => c ≠ ' ') := by
  have hspace : ∀ c : Char, c.toNat = 0x20 ↔ c = ' ' := fun c => (Char.toNat_inj (d := ' '))
  simp only [stripSpaces, ne_eq, hspace]

/-- Settles O50: the text spells bytes exactly where it is an even number of hex digits, and then digit by digit. -/
theorem hexStringsAreAcceptedExactly : Obligations.HexStringsAreAcceptedExactly := by
  refine ⟨fun c => ⟨hexValue_decimal, hexValue_lower, hexValue_upper⟩,
    fun text => ⟨stripSpaces_eq text, fun haccepted => ?_, fun hrefused => ?_⟩⟩
  · obtain ⟨bytes, hbytes⟩ := (exists_hexPairs_iff _).mpr haccepted
    obtain ⟨hlen, hspells⟩ := hexPairs_spells hbytes
    exact ⟨bytes, decodeInput_assembly_ok hbytes, hlen, hspells⟩
  · exact decodeInput_assembly_malformed (mt (exists_hexPairs_iff _).mp hrefused)

/-! ### The decoder and the encoder -/

/-- A number of 10 bits in the opcode table is the command word of that number. -/
theorem decodeTableWord_command {n : Nat} {w : CommandWord} {i : Instr} (hn : w.toNat = n) (h : decodeCommand w = i) :
    decodeTableWord 16 n = some i := by
  have hinput : tableInput 16 n = some (.clock false w) := by
    subst hn
    rw [tableInput, if_pos (Nat.le_refl 16), if_pos w.isLt, BitVec.ofNat_toNat, BitVec.setWidth_eq]
  simp only [decodeTableWord, hinput, decodeInput_clock h]

/-- Settles O49: each number is a command word in its two fields, and the text spells two bytes. -/
theorem specWordsDecode : Obligations.SpecWordsDecode :=
  ⟨decodeTableWord_command rfl (decodeCommand_nop 0x00), decodeTableWord_command rfl (decodeCommand_nop 0xFF),
    decodeTableWord_command rfl (decodeCommand_push 0x55), decodeTableWord_command rfl (decodeCommand_end 0xFF),
    decodeTableWord_command rfl (decodeCommand_ack 0xA5), rfl, decodeInput_assembly_ok rfl⟩

/-- A written digit reads back as its value. -/
theorem hexValue_hexDigit {n : Nat} (h : n < 16) : hexValue (hexDigit n) = some n := by
  interval_cases n <;> rfl

/-- Bytes written as hex digits read back, and there is no space to strip (R8, R60). -/
theorem hexPairs_flatMap_hexOfByte (bytes : List Byte) : hexPairs (bytes.flatMap hexOfByte) = some bytes := by
  induction bytes with
  | nil => rfl
  | cons b bs ih =>
    have hb := b.isLt
    have hhi : hexValue (hexDigit (b.toNat / 16)) = some (b.toNat / 16) := hexValue_hexDigit (by omega)
    have hlo : hexValue (hexDigit (b.toNat % 16)) = some (b.toNat % 16) := hexValue_hexDigit (by omega)
    refine hexPairs_cons_cons_eq_some.mpr ⟨_, _, bs, hhi, hlo, ih, ?_⟩
    rw [Nat.div_add_mod, BitVec.ofNat_toNat, BitVec.setWidth_eq]

/-- Text that spells bytes as it stands has no space in it. -/
theorem stripSpaces_of_hexPairs {cs : List Char} {bytes : List Byte} (h : hexPairs cs = some bytes) :
    stripSpaces cs = cs := by
  obtain ⟨_, hdigits⟩ := (exists_hexPairs_iff cs).mp ⟨bytes, h⟩
  have hspace : ¬ IsHexDigit ' ' := fun h => nomatch exists_hexValue_iff.mpr h
  rw [stripSpaces_eq, List.filter_eq_self]
  intro c hc
  exact decide_eq_true fun hceq => hspace (hceq ▸ hdigits c hc)

/-- Settles O47: the commands by their fields (R45), `FRAME` by its digits, the rest by name. -/
theorem decodeInvertsEncode : Obligations.DecodeInvertsEncode := by
  intro i
  cases i with
  | nop => exact decodeInput_clock (decodeCommand_nop 0)
  | push b => exact decodeInput_clock (decodeCommand_push b)
  | endFrame => exact decodeInput_clock (decodeCommand_end 0)
  | ack => exact decodeInput_clock (decodeCommand_ack 0)
  | frame bytes =>
    have hspelled := hexPairs_flatMap_hexOfByte bytes
    exact decodeInput_assembly_ok (by rwa [stripSpaces_of_hexPairs hspelled])
  | _ => rfl

end Sys2Proof.Machine
end

section
/-! `FRAME` as the run of its commands (R60). -/

namespace Sys2Proof.Machine

/-- The inputs of one clock edge per command: `PUSH` of each byte in order, then `END` (R60, R73). -/
def frameInputs (raw : List Byte) : List Input :=
  raw.map (fun b => .clock false (commandWord 0b01 b)) ++ [.clock false (commandWord 0b10 0)]

/-- A step that takes a `PUSH` word pushes its byte. -/
theorem step_push (b : Byte) (s : State) (l : List Input) :
    step (s.withInputs (.clock false (commandWord 0b01 b) :: l)) = .next ((pushByte b s).withInputs l) := by
  rw [step_run rfl (decodeInput_clock (decodeCommand_push b)), ← pushByte_withInputs]
  rfl

/-- A step that takes an `END` word closes the frame. -/
theorem step_end (s : State) (l : List Input) :
    step (s.withInputs (.clock false (commandWord 0b10 0) :: l)) = closeFrame Config.engine (s.withInputs l) :=
  step_run rfl (decodeInput_clock (decodeCommand_end 0))

/-- The run of a frame's commands pushes its bytes and closes the frame, and takes no input beyond. -/
theorem run_frameInputs (raw : List Byte) (s : State) (l : List Input) :
    Sys2Proof.core.run (raw.length + 1) (s.withInputs (frameInputs raw ++ l)) =
      closeFrame Config.engine ((pushBytes raw s).withInputs l) := by
  induction raw generalizing s with
  | nil => exact (run_one _).trans (step_end s l)
  | cons b bs ih => exact (run_succ_next (step_push b s (frameInputs bs ++ l))).trans (ih (pushByte b s))

/-- Settles O25: both push the bytes and close the frame, with the same inputs pending. -/
theorem frameEqualsItsCommands : Obligations.FrameEqualsItsCommands := by
  intro raw s
  have hrun := run_frameInputs raw s s.inputs
  rw [frameInputs, List.append_assoc, ← pushBytes_withInputs] at hrun
  exact hrun.symm

end Sys2Proof.Machine
end

section
/-! What an accepted frame's header fixes (R59), and which of a frame's bits show in no field (R57). -/

namespace Sys2Proof.Machine

/-! ### The recogniser -/

/-- The header word is its four bytes side by side, byte 3 the most significant (R59). -/
theorem headerWord_eq_append (b0 b1 b2 b3 : Byte) : headerWord b0 b1 b2 b3 = b3 ++ b2 ++ b1 ++ b0 := by
  have happend := BitVec.setWidth_append_append_append_eq_shiftLeft_setWidth_or (b := b3) (b' := b2) (b'' := b1)
    (b''' := b0) (w'''' := 32)
  rw [BitVec.setWidth_eq] at happend
  have hcomm : ∀ x0 x1 x2 x3 : BitVec 32, x0 ||| x1 ||| x2 ||| x3 = x3 ||| x2 ||| x1 ||| x0 := by
    intros
    ac_rfl
  rw [happend]
  exact hcomm _ _ _ _

/-- The recogniser looks at byte 0 and at byte 2 less its bit 0 (R59). -/
theorem headerWord_and_mask (b0 b1 b2 b3 : Byte) :
    headerWord b0 b1 b2 b3 &&& 0x00FE00FF = (0x00#8 ++ (b2 &&& 0xFE) ++ 0x00#8 ++ b0 : BitVec 32) := by
  have hmask : (0x00FE00FF : BitVec 32) = 0x00#8 ++ (0xFE : Byte) ++ 0x00#8 ++ BitVec.allOnes 8 := rfl
  rw [headerWord_eq_append, hmask, BitVec.and_append, BitVec.and_append, BitVec.and_append, BitVec.and_zero,
    BitVec.and_zero, BitVec.and_allOnes]

/-- The recogniser's bits follow from byte 0 and byte 2. -/
theorem headerRecognised_of_bytes {raw : List Byte} (hlen : 4 ≤ raw.length) (h0 : byteAt raw 0 = 0x55)
    (h2 : byteAt raw 2 = 4 ∨ byteAt raw 2 = 5) : headerRecognised raw = true := by
  match raw, hlen with
  | b0 :: b1 :: b2 :: b3 :: _, _ =>
    have hmagic : b0 = 0x55 := BitVec.eq_of_toNat_eq h0
    have hversion : b2 = 4 ∨ b2 = 5 := h2.imp (BitVec.eq_of_toNat_eq ·) (BitVec.eq_of_toNat_eq ·)
    rw [headerRecognised, headerWord_and_mask, hmagic]
    rcases hversion with rfl | rfl <;> rfl

/-- The header bytes of an accepted frame as numbers (R5, R52, R89). -/
theorem Accepted.header_numbers {E : ChecksumEngine} {raw : List Byte} {hlong : Config.lenMin ≤ raw.length}
    {p : DecodedPacket} (h : Accepted E ⟨raw, hlong⟩ p) :
    byteAt raw 0 = 0x55 ∧ byteAt raw 1 = raw.length % 256 ∧ byteAt raw 2 = 4 + raw.length / 256 := by
  have hshort : raw.length ≤ 511 := h.short
  have hmagic : raw[0]? = some 0x55 := h.magic
  have hversion : byteAt raw 2 / 4 = 1 := (frameVersion_toNat hlong).symm.trans (congrArg BitVec.toNat h.version)
  have hlength : byteAt raw 1 + 256 * (byteAt raw 2 % 4) = raw.length := (frameLength_toNat hlong).symm.trans h.length
  have hbyte := byteAt_lt raw 1
  refine ⟨?_, by omega, by omega⟩
  rw [byteAt, List.getD_eq_getElem?_getD, hmagic]
  rfl

/-- Settles O35: the declared length and the version make up bytes 1 and 2. -/
theorem acceptedFramesAreRecognised : Obligations.AcceptedFramesAreRecognised := by
  intro E raw p hok
  obtain ⟨hlong, hacc⟩ := accepted_of_decode hok
  obtain ⟨h0, h1, h2⟩ := hacc.header_numbers
  have hmin : 13 ≤ raw.length := hlong
  have hmax : raw.length ≤ 511 := hacc.short
  exact ⟨headerRecognised_of_bytes (by omega) h0 (by omega), by omega, by omega, h1⟩

/-! ### The unassigned bits -/

/-- A kind is not read from the unassigned bits 4 and 0 of its byte (R54, R57). -/
theorem kindField_and_assigned (b : Byte) : kindField (b &&& 0xEE) = kindField b := by
  have hmask : ((0xEE : Byte) >>> 5).setWidth 3 = BitVec.allOnes 3 := rfl
  rw [kindField, BitVec.ushiftRight_and_distrib, BitVec.setWidth_and, hmask, BitVec.and_allOnes, kindField]

/-- Nor is an id. -/
theorem idField_and_assigned (b : Byte) : idField (b &&& 0xEE) = idField b := by
  have hmask : (0xEE : Byte) &&& 0x0E = 0x0E := rfl
  rw [idField, BitVec.and_assoc, hmask, idField]

/-- The record of a frame but for its trailer value is decided by its payload and by the assigned bits of its first 11 bytes
(R57, R95 to R106). -/
theorem extractPacket_congr {f g : Frame} (hrest : ∀ i : Fin 11, i ≠ 4 → i ≠ 5 → i ≠ 8 → f.byte i = g.byte i)
    (h4 : f.byte 4 &&& 0xEE = g.byte 4 &&& 0xEE) (h5 : f.byte 5 &&& 0xEE = g.byte 5 &&& 0xEE)
    (h8 : f.byte 8 &&& 0xE0 = g.byte 8 &&& 0xE0) (hpay : extractPayload f.raw = extractPayload g.raw) :
    extractPacket g = { extractPacket f with trailer := (extractPacket g).trailer } := by
  have hkind4 : kindField (f.byte 4) = kindField (g.byte 4) := by
    rw [← kindField_and_assigned, h4, kindField_and_assigned]
  have hid4 : idField (f.byte 4) = idField (g.byte 4) := by rw [← idField_and_assigned, h4, idField_and_assigned]
  have hkind5 : kindField (f.byte 5) = kindField (g.byte 5) := by
    rw [← kindField_and_assigned, h5, kindField_and_assigned]
  have hid5 : idField (f.byte 5) = idField (g.byte 5) := by rw [← idField_and_assigned, h5, idField_and_assigned]
  have hctype : commandTypeField (f.byte 8) = commandTypeField (g.byte 8) := h8
  simp only [extractPacket, extractLength, extractVersion, extractHeaderChecksum, extractSourceKind, extractSourceId,
    extractTargetKind, extractTargetId, extractSequence, extractCommandType, extractCommandSet, extractCommandId,
    hkind4, hid4, hkind5, hid5, hctype, hpay, hrest 1 (by decide) (by decide) (by decide),
    hrest 2 (by decide) (by decide) (by decide), hrest 3 (by decide) (by decide) (by decide),
    hrest 6 (by decide) (by decide) (by decide), hrest 7 (by decide) (by decide) (by decide),
    hrest 9 (by decide) (by decide) (by decide), hrest 10 (by decide) (by decide) (by decide)]

/-- The payload is decided by the bytes from 11 up to the trailer (R106). -/
theorem extractPayload_congr {raw raw' : List Byte} (hlen : raw.length = raw'.length)
    (hbytes : ∀ i, 11 ≤ i → i < raw.length - 2 → raw[i]? = raw'[i]?) : extractPayload raw = extractPayload raw' := by
  apply List.ext_getElem?
  intro i
  simp only [extractPayload, List.getElem?_drop, List.getElem?_take, ← hlen]
  split
  next hi => exact hbytes _ (Nat.le_add_right 11 i) hi
  next => rfl

/-- Equal numbers at an index inside both sequences are equal bytes. -/
theorem getElem?_eq_of_byteAt {raw raw' : List Byte} {i : Nat} (hi : i < raw.length) (hi' : i < raw'.length)
    (h : byteAt raw i = byteAt raw' i) : raw[i]? = raw'[i]? := by
  rw [List.getElem?_eq_getElem hi, List.getElem?_eq_getElem hi']
  exact congrArg some (BitVec.eq_of_toNat_eq ((byteAt_eq hi).trans (h.trans (byteAt_eq hi').symm)))

/-- A frame's byte at a fixed offset is that of its sequence. -/
theorem frameByte_eq_getD {raw : List Byte} (hlong : Config.lenMin ≤ raw.length) (i : Fin 11) :
    Frame.byte ⟨raw, hlong⟩ i = raw.getD i 0 :=
  BitVec.eq_of_toNat_eq (frameByte_toNat hlong i)

/-- Settles O36: the extractions mask out the unassigned bits, and the rest of the bytes before the trailer agree. -/
theorem unassignedBitsShowInNoField : Obligations.UnassignedBitsShowInNoField := by
  intro E raw raw' p p' hok hok' hlen hrest h4 h5 h8
  obtain ⟨hlong, hacc⟩ := accepted_of_decode hok
  obtain ⟨hlong', hacc'⟩ := accepted_of_decode hok'
  have hmin : 13 ≤ raw.length := hlong
  have hbyte := frameByte_eq_getD hlong
  have hbyte' := frameByte_eq_getD hlong'
  have hpay : extractPayload raw = extractPayload raw' :=
    extractPayload_congr hlen fun i h11 hi =>
      getElem?_eq_of_byteAt (by omega) (by omega) (hrest i hi (by omega) (by omega) (by omega))
  rw [hacc.packet, hacc'.packet]
  refine extractPacket_congr (fun i hi4 hi5 hi8 => ?_) ?_ ?_ ?_ hpay
  · have hagree := hrest i (by omega) (Fin.val_ne_of_ne hi4) (Fin.val_ne_of_ne hi5) (Fin.val_ne_of_ne hi8)
    exact BitVec.eq_of_toNat_eq (by rwa [frameByte_toNat, frameByte_toNat])
  · rw [hbyte, hbyte']; exact h4
  · rw [hbyte, hbyte']; exact h5
  · rw [hbyte, hbyte']; exact h8

end Sys2Proof.Machine
end

section
/-! The named functions of the decode layer on any byte sequence: each answers, and its answer is of the stated kind
(R54, R56, R84 to R87; notes/assumptions/17.md). -/

namespace Sys2Proof.Machine

/-! ### The checks 4 to 7 -/

/-- `CHK4` raises its own failure only (R84). -/
theorem trailerFailure_some {E : ChecksumEngine} {f : Frame} {e : DecodeError} (h : trailerFailure E f = some e) :
    ∃ v : BitVec 16 × BitVec 16, e = .trailerChecksumMismatch v.1 v.2 := by
  simp only [trailerFailure] at h
  split at h
  · exact ⟨(_, _), (Option.some.inj h).symm⟩
  · cases h

/-- `CHK5` raises its own failure only (R85). -/
theorem versionFailure_some {f : Frame} {e : DecodeError} (h : versionFailure f = some e) :
    ∃ v : BitVec 6, e = .unsupportedVersion v := by
  simp only [versionFailure] at h
  split at h
  · exact ⟨_, (Option.some.inj h).symm⟩
  · cases h

/-- `CHK6` raises its own failure only, with the true number of bytes (R86). -/
theorem lengthFailure_some {f : Frame} {e : DecodeError} (h : lengthFailure f = some e) :
    ∃ d : BitVec 10, e = .lengthMismatch d f.size := by
  simp only [lengthFailure] at h
  split at h
  · exact ⟨_, (Option.some.inj h).symm⟩
  · cases h

/-- `CHK7` raises its own failure only (R87). -/
theorem headerFailure_some {E : ChecksumEngine} {f : Frame} {e : DecodeError} (h : headerFailure E f = some e) :
    ∃ v : BitVec 8 × BitVec 8, e = .headerChecksumMismatch v.1 v.2 := by
  simp only [headerFailure] at h
  split at h
  · exact ⟨(_, _), (Option.some.inj h).symm⟩
  · cases h

/-- A check that raises failures of one form on a frame, and below 13 bytes a free value of that form, raises failures of
that form only. -/
theorem checkAnyBytes_some {α : Type} {failure : α → DecodeError} {raw : List Byte} {check : Frame → Option DecodeError}
    {unstated : Option α} (hcheck : ∀ f e, f.raw = raw → check f = some e → ∃ v, e = failure v) {e : DecodeError}
    (h : checkAnyBytes raw check (unstated.map failure) = some e) : ∃ v, e = failure v := by
  by_cases hlong : Config.lenMin ≤ raw.length
  · rw [checkAnyBytes_long hlong] at h
    exact hcheck ⟨raw, hlong⟩ e rfl h
  · rw [checkAnyBytes_short hlong] at h
    obtain ⟨v, _, hv⟩ := Option.map_eq_some_iff.mp h
    exact ⟨v, hv.symm⟩

/-- A check whose failures are all of one form passes or raises a failure of that form, and changes nothing else. -/
theorem checkAnswer_cases {α : Type} {failure : α → DecodeError} {o : Option DecodeError}
    (h : ∀ e, o = some e → ∃ v, e = failure v) (s : State) :
    (Host.Outcome.next (answerWith (checkAnswer o) s) : Host.Outcome State Fault Refusal) =
        .next { s with answer := .passed } ∨
      ∃ v, (Host.Outcome.next (answerWith (checkAnswer o) s) : Host.Outcome State Fault Refusal) =
        .next { s with answer := .raised (failure v) } := by
  cases o with
  | none => exact .inl rfl
  | some e =>
    obtain ⟨v, rfl⟩ := h e rfl
    exact .inr ⟨v, rfl⟩

/-! ### The extractions -/

/-- A field as an answer is a number below the power of two of its width (R109). -/
theorem exists_number_answer {w : Nat} (v : BitVec w) (s : State) :
    ∃ n, (Host.Outcome.next (answerWith (numberAnswer w v) s) : Host.Outcome State Fault Refusal) =
      .next { s with answer := .number w n } ∧ n < 2 ^ w :=
  ⟨v.toNat, rfl, v.isLt⟩

/-- An id as an answer is even as well (R54). -/
theorem exists_id_answer (b : Byte) (s : State) :
    ∃ n, (Host.Outcome.next (answerWith (numberAnswer 4 (idField b)) s) : Host.Outcome State Fault Refusal) =
      .next { s with answer := .number 4 n } ∧ n < 16 ∧ n % 2 = 0 :=
  ⟨(idField b).toNat, rfl, (idField b).isLt, by rw [idField_toNat, Nat.mul_mod_right]⟩

/-- A command type as an answer is a multiple of 32 as well (R56). -/
theorem exists_commandType_answer (b : Byte) (s : State) :
    ∃ n, (Host.Outcome.next (answerWith (numberAnswer 8 (commandTypeField b)) s) : Host.Outcome State Fault Refusal) =
      .next { s with answer := .number 8 n } ∧ n < 256 ∧ n % 32 = 0 :=
  ⟨(commandTypeField b).toNat, rfl, (commandTypeField b).isLt, by rw [commandTypeField_toNat, Nat.mul_mod_right]⟩

/-- Settles O46, function by function. -/
theorem namedFunctionsAnswerOnAnyBytes : Obligations.NamedFunctionsAnswerOnAnyBytes := by
  intro raw s
  refine ⟨?chk4, ?chk5, ?chk6, ?chk7, exists_number_answer _ s, exists_number_answer _ s, exists_number_answer _ s,
    exists_number_answer _ s, exists_id_answer _ s, exists_number_answer _ s, exists_id_answer _ s,
    exists_number_answer _ s, exists_commandType_answer _ s, exists_number_answer _ s, exists_number_answer _ s,
    ⟨_, _, rfl⟩, exists_number_answer _ s⟩
  case chk4 =>
    refine Or.imp_right ?_ (checkAnswer_cases (fun _ => checkAnyBytes_some fun _ _ _ => trailerFailure_some) s)
    exact fun ⟨v, h⟩ => ⟨v.1, v.2, h⟩
  case chk5 => exact checkAnswer_cases (fun _ => checkAnyBytes_some fun _ _ _ => versionFailure_some) s
  case chk6 =>
    have hsize : ∀ f e, f.raw = raw → lengthFailure f = some e → ∃ d, e = .lengthMismatch d raw.length := by
      rintro f e rfl h
      exact lengthFailure_some h
    exact checkAnswer_cases (fun _ => checkAnyBytes_some hsize) s
  case chk7 =>
    refine Or.imp_right ?_ (checkAnswer_cases (fun _ => checkAnyBytes_some fun _ _ _ => headerFailure_some) s)
    exact fun ⟨v, h⟩ => ⟨v.1, v.2, h⟩

end Sys2Proof.Machine
end

section
/-! The port commands one by one (R66, R67, R69, R70, R71) and their dispatch at a clock edge (R74). -/

namespace Sys2Proof.Machine

/-! ### What each command executes -/

/-- What `PUSH` executes (R67). -/
theorem exec_push (b : Byte) (s : State) : exec (.push b) s = .next (pushByte b s) := rfl

/-- What `END` executes (R68). -/
theorem exec_end (s : State) : exec .endFrame s = closeFrame Config.engine s := rfl

/-- What `ACK` executes (R69). -/
theorem exec_ack (s : State) : exec .ack s = .next (acknowledge s) := rfl

/-- `ACK` in DONE releases the result (R69). -/
theorem exec_ack_done {s : State} (h : s.st = .done) : exec .ack s = .next (releaseResult s) := by
  rw [exec_ack, acknowledge_done h]

/-- `RDPL` answers what the payload port shows (R70). -/
theorem exec_rdpl {s : State} {i : PayloadIndex} {data : Byte} {ok : Bool} (h : readPort s i = some (data, ok)) :
    exec (.rdpl i) s = .next (answerWith (.port data ok) s) := by
  simp only [exec, execRdpl, h]

/-- A command that DONE does not accept is run in RECV and in DONE only sets `perr` (R71, R74). -/
theorem exec_of_misuse_in_done {i : Instr} (hi : setsPerr i .done = true) (s : State) :
    exec i s = if s.st = .recv then exec i s else .next (raiseProtocolError s) := by
  cases hst : s.st with
  | recv => rw [if_pos rfl]
  | done => rw [if_neg (by decide), exec_misused (by rw [hst, hi])]

/-- `ACK` only sets `perr` in RECV and releases the result in DONE (R69, R74). -/
theorem exec_ack_eq (s : State) :
    exec .ack s = if s.st = .recv then .next (raiseProtocolError s) else .next (releaseResult s) := by
  cases hst : s.st with
  | recv => rw [if_pos rfl, exec_misused (by rw [hst]; rfl)]
  | done => rw [if_neg (by decide), exec_ack_done hst]

/-! ### The payload read in place -/

/-- Under the invariant the port's index range for a success lies inside the frame, before its trailer, and every byte of
it can be read (R70, R152). -/
theorem State.Inv.memRead_payload {s : State} (h : s.Inv) (hst : s.st = .done) (hstatus : s.res.status = 0) {k : Nat}
    (hk : k < s.res.fPlen.toNat) :
    11 + k ≤ s.cnt.toNat - 3 ∧ 11 + k ≤ 508 ∧ ∃ b, memRead s (11 + k) = some b := by
  obtain ⟨hlong, hshort, _, _, hplen, _⟩ := h.success_facts hst hstatus
  have hwritten : s.written = s.cnt.toNat := Nat.min_eq_left hshort
  have hinside : 11 + k < s.written := by omega
  refine ⟨by omega, by omega, ?_⟩
  rw [memRead_of_lt hinside]
  exact h.buffer_written _ hinside

/-! ### One step -/

/-- A clock edge without reset runs the instruction of its command word (R74). -/
theorem step_command {s : State} {w : CommandWord} {rest : List Input} {i : Instr}
    (hs : s.inputs = .clock false w :: rest) (hw : decodeCommand w = i) : step s = exec i (s.withInputs rest) :=
  step_run hs (decodeInput_clock hw)

/-- With the inputs used up the run is over (R155). -/
theorem step_noInput {s : State} (h : s.inputs = []) : step s = .refused .noInput := by
  simp only [step, h]

/-- A `FRAME` line that the assembler refuses reaches the block as no command (R60, R133). -/
theorem step_malformed {s : State} {x : Input} {rest : List Input} (hs : s.inputs = x :: rest)
    (hx : decodeInput x = .error .malformedHexInput) : step s = .refused .malformedHexInput := by
  simp only [step, hs, hx]

/-! ### The obligations -/

/-- Settles O6. -/
theorem nopChangesNothing : Obligations.NopChangesNothing :=
  ⟨fun _ => rfl, decodeCommand_nop⟩

/-- Settles O7, one case of the counter or control state at a time. -/
theorem pushAppendsOneByte : Obligations.PushAppendsOneByte := by
  intro b s
  refine ⟨fun hst hroom => ?room, fun hst hfull => ?full, fun hst hsat => ?saturated, fun hst => ?misuse⟩
  case room =>
    have hroom' : s.cnt.toNat < Config.bufBytes := Nat.lt_succ_of_le hroom
    refine ⟨Memory.store s.mem s.cnt.toNat b, ?_, lookup_store_same _ _ _, fun _ => lookup_store_other _ _, by bv_omega,
      fun hwf => store_wf b hwf hroom'⟩
    rw [exec_push, pushByte_room b hst hroom']
    rfl
  case full => rw [exec_push, pushByte_full b hst hfull]
  case saturated => rw [exec_push, pushByte_saturated b hst hsat.ge]
  case misuse => exact exec_misused (by rw [hst]; rfl)

/-- Settles O11. -/
theorem ackReleasesTheResult : Obligations.AckReleasesTheResult := by
  intro s
  refine ⟨fun hst => ⟨exec_ack_done hst, fun i => ?shut⟩, fun hst => exec_misused (by rw [hst]; rfl)⟩
  case shut => exact readPort_shut (fun hopen => nomatch hopen.1)

/-- Settles O12: outside the payload the port is shut, and inside it the invariant gives the byte it shows. -/
theorem payloadPortReadsInPlace : Obligations.PayloadPortReadsInPlace := by
  intro s i
  refine ⟨fun hshut => exec_rdpl (readPort_shut hshut), fun hinv hst hstatus hi => ?inside⟩
  case inside =>
    obtain ⟨hcnt, hbuf, b, hread⟩ := hinv.memRead_payload hst hstatus hi
    exact ⟨hcnt, hbuf, b, hread, exec_rdpl (readPort_open ⟨hst, hstatus, hi⟩ hread)⟩

/-- Settles O13: the refused commands are misuses, and O14 says what any other instruction does to `perr`. -/
theorem protocolErrorWritesOnlyPerr : Obligations.ProtocolErrorWritesOnlyPerr := by
  intro s
  have hmisuse : ∀ i, setsPerr i s.st = true → exec i s = .next { s with perr := true } := fun _ => exec_misused
  refine ⟨rfl, fun hst => ⟨fun b => hmisuse _ ?_, hmisuse _ ?_⟩, fun hst => hmisuse _ ?_, ?sticky⟩
  case sticky =>
    intro i t hperr hi hexec
    rw [(perrIsStickyUntilReset i s t hexec).2 hi, hperr, Bool.true_or]
  all_goals rw [hst]; rfl

/-- Settles O22. -/
theorem stepRunsTheDecodedInstruction : Obligations.StepRunsTheDecodedInstruction :=
  fun _ => ⟨fun _ _ _ => step_run, step_noInput, fun _ _ => step_malformed⟩

/-- Settles O23, row by row of the dispatch table. -/
theorem clockEdgeDispatch : Obligations.ClockEdgeDispatch := by
  intro s cmd rest data
  refine ⟨fun hs => step_run hs rfl, fun hs => step_command hs (decodeCommand_nop data), fun hs => ?push,
    fun hs => ?endFrame, fun hs => ?ack⟩
  case push => exact (step_command hs (decodeCommand_push data)).trans (exec_of_misuse_in_done rfl _)
  case endFrame => exact (step_command hs (decodeCommand_end data)).trans (exec_of_misuse_in_done rfl _)
  case ack => exact (step_command hs (decodeCommand_ack data)).trans (exec_ack_eq _)

end Sys2Proof.Machine
end

section
/-! Frames through the shell once more: streamed as command words with idle clock edges among them (R73), and decoded
twice (R75). -/

namespace Sys2Proof.Machine

/-! ### Streams of command words -/

/-- The operations of a stream of command words, its `NOP` words left out. -/
def activeCommands (cmds : List CommandWord) : List Instr := (cmds.map decodeCommand).filter (fun i => i ≠ .nop)

theorem activeCommands_cons_nop {w : CommandWord} (h : decodeCommand w = .nop) (ws : List CommandWord) :
    activeCommands (w :: ws) = activeCommands ws := by
  simp [activeCommands, h]

theorem activeCommands_cons {w : CommandWord} {i : Instr} (h : decodeCommand w = i) (hi : i ≠ .nop)
    (ws : List CommandWord) : activeCommands (w :: ws) = i :: activeCommands ws := by
  simp [activeCommands, h, hi]

/-- The inputs of one clock edge per command word, and then `l`. -/
def clockEdges (cmds : List CommandWord) (l : List Input) : List Input := cmds.map (.clock false) ++ l

/-- A step takes the first word of a stream and executes it. -/
theorem step_clockEdges {w : CommandWord} {i : Instr} (h : decodeCommand w = i) (ws : List CommandWord) (s : State)
    (l : List Input) : step (s.withInputs (clockEdges (w :: ws) l)) = exec i (s.withInputs (clockEdges ws l)) :=
  step_command rfl h

/-- The inputs still pending take no part in a `PUSH`. -/
theorem exec_push_withInputs (b : Byte) (s : State) (l : List Input) :
    exec (.push b) (s.withInputs l) = .next ((pushByte b s).withInputs l) := by
  rw [exec_push, pushByte_withInputs]

/-- The inputs still pending take no part in an `END` that is answered. -/
theorem exec_end_withInputs {s t : State} (h : closeFrame Config.engine s = .next t) (l : List Input) :
    exec .endFrame (s.withInputs l) = .next (t.withInputs l) := by
  rw [exec_end, closeFrame_withInputs, h]

/-- A stream of `NOP` words alone changes nothing (R66). -/
theorem run_clockEdges_nops {cmds : List CommandWord} (h : activeCommands cmds = []) (s : State) (l : List Input) :
    Sys2Proof.core.run cmds.length (s.withInputs (clockEdges cmds l)) = .next (s.withInputs l) := by
  induction cmds with
  | nil => rfl
  | cons w ws ih =>
    have hw : decodeCommand w = .nop := by
      by_contra hne
      exact nomatch (activeCommands_cons rfl hne ws).symm.trans h
    rw [activeCommands_cons_nop hw] at h
    exact (run_succ_next (step_clockEdges hw ws s l)).trans (ih h)

/-- A stream that is, less its `NOP` words, `PUSH` of each byte of `raw` and then `END` runs to the state that closing the
frame after pushing `raw` leaves (R73). -/
theorem run_clockEdges {raw : List Byte} {cmds : List CommandWord} {s t : State}
    (hcmds : activeCommands cmds = raw.map .push ++ [.endFrame])
    (hclose : closeFrame Config.engine (pushBytes raw s) = .next t) (l : List Input) :
    Sys2Proof.core.run cmds.length (s.withInputs (clockEdges cmds l)) = .next (t.withInputs l) := by
  induction cmds generalizing raw s with
  | nil => cases raw <;> cases hcmds
  | cons w ws ih =>
    have hstep := fun i (hw : decodeCommand w = i) => step_clockEdges hw ws s l
    rcases decodeCommand_cases w with hw | ⟨b, hw⟩ | hw | hw
    case inl =>
      rw [activeCommands_cons_nop hw] at hcmds
      exact (run_succ_next (hstep _ hw)).trans (ih hcmds hclose)
    all_goals rw [activeCommands_cons hw nofun] at hcmds
    case inr.inl =>
      cases raw with
      | nil => cases hcmds
      | cons b' raw =>
        obtain ⟨hb, hrest⟩ := List.cons.inj hcmds
        cases hb
        exact (run_succ_next ((hstep _ hw).trans (exec_push_withInputs b s _))).trans (ih hrest hclose)
    case inr.inr.inl =>
      cases raw with
      | nil =>
        obtain ⟨_, hrest⟩ := List.cons.inj hcmds
        exact (run_succ_next ((hstep _ hw).trans (exec_end_withInputs hclose _))).trans (run_clockEdges_nops hrest t l)
      | cons b raw => cases hcmds
    case inr.inr.inr => cases raw <;> cases hcmds

/-- Settles O26: the stream ends where `FRAME` ends (O24), with the inputs beyond it pending. -/
theorem streamedCommandsShowTheImageOfDecode : Obligations.StreamedCommandsShowTheImageOfDecode := by
  intro raw cmds rest s hidle hcmds hinputs
  obtain ⟨t, hframe, hst, hres, hcnt, hbuf, _, hperr, hanswer, _⟩ := frameShowsTheImageOfDecode raw s hidle
  have hrun := run_clockEdges hcmds hframe rest
  have hs : s.withInputs (clockEdges cmds rest) = s := by rw [clockEdges, ← hinputs]; rfl
  rw [hs] at hrun
  have hbuf' : bufferedBytes (t.withInputs rest) = bufferedBytes t := bufferedBytes_congr rfl rfl
  exact ⟨t.withInputs rest, hrun, hst, hres, hcnt, hbuf'.trans hbuf, hperr, hanswer, rfl⟩

/-! ### The same frame twice -/

/-- Settles O27: after `ACK` the block is idle again, so O28 gives the same outcome and payload, and neither `ACK` nor
`FRAME` touches `perr`. -/
theorem decodingTwiceGivesTheSame : Obligations.DecodingTwiceGivesTheSame := by
  intro raw s hidle
  obtain ⟨t, hfirst, hdone, _⟩ := frameShowsTheImageOfDecode raw s hidle
  have hidle' : (releaseResult t).Idle := ⟨rfl, rfl⟩
  obtain ⟨t', v, hfirst', hsecond, hres, hcnt, hst, hport⟩ := outcomeDependsOnTheFrameOnly raw s _ hidle hidle'
  obtain rfl : t = t' := Host.Outcome.next.inj (hfirst.symm.trans hfirst')
  have hperr : v.perr = t.perr := by
    obtain ⟨v', hsecond', _, _, _, _, _, hperr', _⟩ := frameShowsTheImageOfDecode raw _ hidle'
    rw [Host.Outcome.next.inj (hsecond.symm.trans hsecond'), hperr', releaseResult_perr]
  have hsame : SameOutputs t v := ⟨hst, hcnt, hres, hperr.symm, congrArg ControlState.bit hst, hport⟩
  exact ⟨t, _, v, hfirst, exec_ack_done hdone, hsecond, hsame⟩

end Sys2Proof.Machine
end

section
/-! `Decode` as the chain of its checks (R72, R80). -/

namespace Sys2Proof.Machine

/-- `CHK4` to `CHK7` are tried in this order (R80). -/
theorem laterFailure_eq_or (E : ChecksumEngine) (f : Frame) :
    laterFailure E f =
      (trailerFailure E f).or ((versionFailure f).or ((lengthFailure f).or (headerFailure E f))) := by
  unfold laterFailure
  cases trailerFailure E f with
  | some e => rfl
  | none =>
    cases versionFailure f with
    | some e => rfl
    | none => cases lengthFailure f <;> rfl

/-- Steps 4 to 11 report the failure of a check, if there is one, and the extracted record otherwise (R72). -/
theorem decodeFrame_eq_elim (E : ChecksumEngine) (f : Frame) :
    decodeFrame E f = (laterFailure E f).elim (.ok (extractPacket f)) .fail := by
  unfold decodeFrame
  cases laterFailure E f <;> rfl

/-- What passing `CHK1` establishes (R81). -/
theorem magicFailure_eq_none {raw : List Byte} : magicFailure raw = none ↔ raw.head? = some 0x55 := by
  simp [magicFailure_eq]

/-- Beyond the buffer's capacity `Decode'` looks at the first byte only (R72). -/
theorem decodeBuffered_saturated (E : ChecksumEngine) {n : Nat} (h : 511 < n) (stored : List Byte) :
    decodeBuffered E n stored =
      if stored.head? = some 0x55 then .fail .packetTooLong else .fail .invalidMagic := by
  unfold decodeBuffered
  rw [if_neg (Nat.not_le_of_lt h)]
  cases hm : magicFailure stored with
  | some e =>
    cases magicFailure_some hm
    rw [if_neg (fun hhead => nomatch hm.symm.trans (magicFailure_eq_none.mpr hhead))]
  | none => rw [if_pos (magicFailure_eq_none.mp hm)]

/-- Settles O31: the first three tests are the cases of `Decode`; on a frame of legal length the checks 4 to 7 and the
extractions are the numeric tests and fields of the chain. -/
theorem decodeIsTheChainOfChecks : Obligations.DecodeIsTheChainOfChecks := by
  intro E raw
  refine ⟨?chain, fun n hn => decodeBuffered_eq_decode E raw hn, ?saturated⟩
  case saturated => rw [decodeBuffered_saturated E (by decide), ite_not]
  case chain =>
    rcases decode_cases E raw with ⟨hbad, e⟩ | ⟨hmagic, hshort, e⟩ | ⟨hmagic, hlong, e⟩ | ⟨hwindow, hmagic, e⟩
    case inl =>
      rw [e, if_pos (fun hhead => nomatch hbad.symm.trans (magicFailure_eq_none.mpr hhead))]
    all_goals rw [e, if_neg (not_not.mpr (magicFailure_eq_none.mp hmagic))]
    case inr.inl => rw [if_pos hshort]
    case inr.inr.inl =>
      have hlong' : 511 < raw.length := hlong
      rw [if_neg (by omega), if_pos hlong']
    case inr.inr.inr =>
      rw [if_neg (Nat.not_lt_of_le hwindow.1), if_neg (Nat.not_lt_of_le hwindow.2), decodeFrame_eq_elim, laterFailure_eq_or,
        trailerFailure_eq, versionFailure_eq, lengthFailure_eq, headerFailure_eq, extractPacket_eq]
      split_ifs <;> rfl

end Sys2Proof.Machine
end

section
/-! The validation checks (R81 to R89, R91): what `Decode` accepts and refuses by them, and what each answers when applied
to bytes by name. -/

namespace Sys2Proof.Machine

/-! ### What Decode accepts -/

/-- `Decode` succeeds exactly on the byte sequences of legal length on which no other check fails (R72, R80). -/
theorem exists_decode_ok_iff (E : ChecksumEngine) (raw : List Byte) :
    (∃ p, decode E raw = .ok p) ↔
      ∃ hwindow : Config.lenMin ≤ raw.length ∧ raw.length ≤ Config.lenMax,
        magicFailure raw = none ∧ laterFailure E ⟨raw, hwindow.1⟩ = none := by
  constructor
  · rintro ⟨p, hok⟩
    rcases decode_cases E raw with ⟨_, e⟩ | ⟨_, _, e⟩ | ⟨_, _, e⟩ | ⟨hwindow, hmagic, e⟩
    case inr.inr.inr => exact ⟨hwindow, hmagic, (decodeFrame_eq_ok.mp (e.symm.trans hok)).1⟩
    all_goals exact nomatch e.symm.trans hok
  · rintro ⟨hwindow, hmagic, hlater⟩
    exact ⟨_, (decode_frame E hmagic hwindow).trans (decodeFrame_eq_ok.mpr ⟨hlater, rfl⟩)⟩

/-- What passing `CHK4` to `CHK7` establishes, as numbers (R84 to R87). -/
theorem laterFailure_eq_none_iff_numbers (E : ChecksumEngine) {raw : List Byte} (h : Config.lenMin ≤ raw.length) :
    laterFailure E ⟨raw, h⟩ = none ↔
      (E.ck16 (raw.take (raw.length - 2))).toNat = storedTrailer raw ∧ byteAt raw 2 / 4 = 1 ∧
        byteAt raw 1 + 256 * (byteAt raw 2 % 4) = raw.length ∧ (E.ck8 (raw.take 3)).toNat = byteAt raw 3 := by
  rw [laterFailure_eq_none, trailerFailure_eq, versionFailure_eq, lengthFailure_eq, headerFailure_eq,
    eq_comm (a := (E.ck16 _).toNat)]
  simp only [ite_eq_right_iff, reduceCtorEq, imp_false, not_not]

/-- Settles O32: of the seven checks, `CHK1` is the magic byte, `CHK2` and `CHK3` are the window, and the others are the
remaining four invariants. -/
theorem decodeSucceedsIffInvariantsHold : Obligations.DecodeSucceedsIffInvariantsHold := by
  intro E raw
  rw [exists_decode_ok_iff]
  constructor
  · rintro ⟨⟨hmin, hmax⟩, hmagic, hlater⟩
    exact ⟨magicFailure_eq_none.mp hmagic, hmin, hmax, (laterFailure_eq_none_iff_numbers E hmin).mp hlater⟩
  · rintro ⟨hmagic, hmin, hmax, hnumbers⟩
    exact ⟨⟨hmin, hmax⟩, magicFailure_eq_none.mpr hmagic, (laterFailure_eq_none_iff_numbers E hmin).mpr hnumbers⟩

/-! ### Outside the length window -/

/-- `CHK1` comes before every other check (R80): a failure `e` that `Decode` reports of bytes that pass it gives way to
`InvalidMagic` on bytes that do not. -/
theorem decode_fail_of_magic {E : ChecksumEngine} {raw : List Byte} {e : DecodeError}
    (h : magicFailure raw = none → decode E raw = .fail e) :
    decode E raw = .fail (if raw.head? = some 0x55 then e else .invalidMagic) := by
  by_cases hhead : raw.head? = some 0x55
  · rw [if_pos hhead, h (magicFailure_eq_none.mpr hhead)]
  · rw [if_neg hhead, decode_badMagic E ((magicFailure_eq raw).trans (if_neg hhead))]

/-- Settles O33: past `CHK1`, fewer than 13 bytes fail `CHK2` and more than 511 fail `CHK3`. -/
theorem lengthWindowOutcomes : Obligations.LengthWindowOutcomes := fun E _ =>
  ⟨fun hshort => decode_fail_of_magic fun hmagic => decode_tooShort E hmagic hshort,
    fun hlong => decode_fail_of_magic fun hmagic => decode_tooLong E hmagic hlong⟩

/-! ### The recipe's frame -/

/-- The payload of the recipe's frame is its body less the seven bytes of the transit and command blocks (R50, R106). -/
theorem extractPayload_recipeFrame (E : ChecksumEngine) (B : List Byte) :
    extractPayload (recipeFrame E B) = B.drop 7 := by
  unfold extractPayload
  rw [recipeFrame_length, show B.length + 6 - 2 = B.length + 4 by omega, recipeFrame_take_covered]
  rfl

/-- Settles O34: the frame is accepted, and the record of an accepted frame is the extracted one, with the length, version
and trailer the checks compared. -/
theorem recipeFrameDecodes : Obligations.RecipeFrameDecodes := by
  intro E B h7 h505
  have hlen := recipeFrame_length E B
  obtain ⟨p, hok⟩ := decode_recipeFrame E h7 h505
  obtain ⟨hlong, hacc⟩ := accepted_of_decode hok
  refine ⟨p, hok, hacc.length_fields.1, hlen, ?version, ?payload, ?trailer⟩
  all_goals rw [hacc.packet]
  case version => exact hacc.version
  case payload => exact extractPayload_recipeFrame E B
  case trailer =>
    rw [show B.length + 4 = (recipeFrame E B).length - 2 by omega]
    exact hacc.trailer

/-! ### The checks applied by name -/

/-- A check that is a test `c` raising `e` answers accordingly, and nothing else changes. -/
theorem answerWith_checkAnswer_ite {o : Option DecodeError} {c : Prop} [Decidable c] {e : DecodeError}
    (h : o = if c then some e else none) (s : State) :
    (Host.Outcome.next (answerWith (checkAnswer o) s) : Host.Outcome State Fault Refusal) =
      .next { s with answer := if c then .raised e else .passed } := by
  subst h
  by_cases hc : c
  · rw [if_pos hc, if_pos hc]; rfl
  · rw [if_neg hc, if_neg hc]; rfl

/-- `CHK1` as a numeric test (R81). -/
theorem magicFailure_eq_number (raw : List Byte) :
    magicFailure raw = if raw.length = 0 ∨ byteAt raw 0 ≠ 0x55 then some .invalidMagic else none := by
  cases raw with
  | nil => rfl
  | cons b rest =>
    have hbyte : byteAt (b :: rest) 0 = 0x55 ↔ b = Config.magic := ⟨fun h => BitVec.eq_of_toNat_eq h, fun h => h ▸ rfl⟩
    simp [magicFailure, hbyte]

/-- Settles O40: from 13 bytes on each of these checks is its numeric test. -/
theorem contentChecksAnswer : Obligations.ContentChecksAnswer := fun _ s h =>
  ⟨answerWith_checkAnswer_ite ((checkAnyBytes_long h _ _).trans (trailerFailure_eq h Config.engine)) s,
    answerWith_checkAnswer_ite ((checkAnyBytes_long h _ _).trans (versionFailure_eq h)) s,
    answerWith_checkAnswer_ite ((checkAnyBytes_long h _ _).trans (lengthFailure_eq h)) s,
    answerWith_checkAnswer_ite ((checkAnyBytes_long h _ _).trans (headerFailure_eq h Config.engine)) s⟩

/-- Settles O39: the magic byte check as a number, and the length checks as they are defined. -/
theorem magicAndLengthChecksAnswer : Obligations.MagicAndLengthChecksAnswer := fun raw s =>
  ⟨answerWith_checkAnswer_ite (magicFailure_eq_number raw) s, answerWith_checkAnswer_ite rfl s,
    answerWith_checkAnswer_ite rfl s⟩

end Sys2Proof.Machine
end

section
/-! The field extractions applied to bytes by name (R95 to R107): each answers the number its bytes spell, or the payload. -/

namespace Sys2Proof.Machine

/-! ### The answer of an extraction -/

/-- A field whose number is `n` is answered as `n` with its width, and nothing else changes. -/
theorem answerWith_numberAnswer {w n : Nat} {v : BitVec w} (h : v.toNat = n) (s : State) :
    (Host.Outcome.next (answerWith (numberAnswer w v) s) : Host.Outcome State Fault Refusal) =
      .next { s with answer := .number w n } := by
  subst h
  rfl

/-! ### The fields of any byte sequence, as numbers of the bytes they lie in -/

section

variable {raw : List Byte}

/-- The declared length lies in bytes 1 and 2 (R95). -/
theorem extractLength_fixedByte_toNat (h : 3 ≤ raw.length) :
    (extractLength (fixedByte raw)).toNat = byteAt raw 1 + 256 * (byteAt raw 2 % 4) := by
  have h1 : (fixedByte raw 1).toNat = byteAt raw 1 := fixedByte_toNat (Nat.lt_of_succ_lt h)
  have h2 : (fixedByte raw 2).toNat = byteAt raw 2 := fixedByte_toNat h
  rw [extractLength, lengthField_toNat, h1, h2]

/-- The version lies in byte 2 (R96). -/
theorem extractVersion_fixedByte_toNat (h : 3 ≤ raw.length) :
    (extractVersion (fixedByte raw)).toNat = byteAt raw 2 / 4 := by
  have h2 : (fixedByte raw 2).toNat = byteAt raw 2 := fixedByte_toNat h
  rw [extractVersion, versionField_toNat, h2]

/-- The kind in byte 4 or 5 (R98, R100). -/
theorem kindField_fixedByte_toNat {i : Fin 11} (h : i.val < raw.length) :
    (kindField (fixedByte raw i)).toNat = byteAt raw i / 32 := by
  rw [kindField_toNat, fixedByte_toNat h]

/-- The id in byte 4 or 5, even and unshifted (R99, R101). -/
theorem idField_fixedByte_toNat {i : Fin 11} (h : i.val < raw.length) :
    (idField (fixedByte raw i)).toNat = 2 * (byteAt raw i / 2 % 8) := by
  rw [idField_toNat, fixedByte_toNat h]

/-- The sequence number lies in bytes 6 and 7, low byte first (R102). -/
theorem extractSequence_fixedByte_toNat (h : 8 ≤ raw.length) :
    (extractSequence (fixedByte raw)).toNat = byteAt raw 6 + 256 * byteAt raw 7 := by
  have h6 : (fixedByte raw 6).toNat = byteAt raw 6 := fixedByte_toNat (Nat.lt_of_succ_lt h)
  have h7 : (fixedByte raw 7).toNat = byteAt raw 7 := fixedByte_toNat h
  rw [extractSequence, le16_toNat, h6, h7]

/-- The command type in byte 8, a multiple of 32 (R103). -/
theorem extractCommandType_fixedByte_toNat (h : 9 ≤ raw.length) :
    (extractCommandType (fixedByte raw)).toNat = 32 * (byteAt raw 8 / 32) := by
  have h8 : (fixedByte raw 8).toNat = byteAt raw 8 := fixedByte_toNat h
  rw [extractCommandType, commandTypeField_toNat, h8]

/-- The payload's bytes are those from offset 11 on (R106). -/
theorem extractPayload_getElem? {i : Nat} (h : i < raw.length - 13) : (extractPayload raw)[i]? = raw[11 + i]? := by
  have hbefore : Config.payOff + i < raw.length - 2 := by
    show 11 + i < raw.length - 2
    omega
  rw [extractPayload, List.getElem?_drop, List.getElem?_take_of_lt hbefore]

/-- The payload length is `n - 13` where that is a number of 9 bits (R106). -/
theorem extractPayloadLength_toNat (h13 : 13 ≤ raw.length) (h524 : raw.length ≤ 524) :
    (extractPayloadLength raw).toNat = raw.length - 13 := by
  have hfits : raw.length - 13 < 512 := by omega
  rw [extractPayloadLength, if_pos ⟨h13, hfits⟩, BitVec.toNat_ofNat, Nat.mod_eq_of_lt hfits]

end

/-! ### The extractions applied by name -/

/-- Settles O41: the header's fields are the numbers of their bytes. -/
theorem headerExtractionsAnswer : Obligations.HeaderExtractionsAnswer := fun _ s =>
  ⟨fun h => answerWith_numberAnswer (extractLength_fixedByte_toNat h) s,
    fun h => answerWith_numberAnswer (extractVersion_fixedByte_toNat h) s,
    fun h => answerWith_numberAnswer (fixedByte_toNat (i := 3) h) s⟩

/-- Settles O42: bytes 4 and 5 each hold a kind and an id, bytes 6 and 7 the sequence number. -/
theorem transitExtractionsAnswer : Obligations.TransitExtractionsAnswer := fun _ s =>
  ⟨fun h => answerWith_numberAnswer (kindField_fixedByte_toNat (i := 4) h) s,
    fun h => answerWith_numberAnswer (idField_fixedByte_toNat (i := 4) h) s,
    fun h => answerWith_numberAnswer (kindField_fixedByte_toNat (i := 5) h) s,
    fun h => answerWith_numberAnswer (idField_fixedByte_toNat (i := 5) h) s,
    fun h => answerWith_numberAnswer (extractSequence_fixedByte_toNat h) s⟩

/-- Settles O43: the command type is masked out of byte 8; the command set and id are bytes 9 and 10 whole. -/
theorem commandExtractionsAnswer : Obligations.CommandExtractionsAnswer := fun _ s =>
  ⟨fun h => answerWith_numberAnswer (extractCommandType_fixedByte_toNat h) s,
    fun h => answerWith_numberAnswer (fixedByte_toNat (i := 9) h) s,
    fun h => answerWith_numberAnswer (fixedByte_toNat (i := 10) h) s⟩

/-- Settles O44: `XPAY` answers the extracted payload and payload length, `XTRL` the last two bytes. -/
theorem payloadAndTrailerExtractionsAnswer : Obligations.PayloadAndTrailerExtractionsAnswer := fun raw s =>
  ⟨⟨extractPayload raw, extractPayloadLength raw, rfl, extractPayload_length raw, fun _ => extractPayload_getElem?,
      extractPayloadLength_toNat⟩,
    fun h => answerWith_numberAnswer (rawTrailer_toNat h) s⟩

end Sys2Proof.Machine
end

section
/-! The checksum functions (R115 to R117), and the source's frame under the candidate instantiation (R119, R120, R122). -/

namespace Sys2Proof.Machine

/-- Settles O45: each function answers its value with its width. -/
theorem checksumFunctionsAnswer : Obligations.ChecksumFunctionsAnswer := fun _ s =>
  ⟨answerWith_numberAnswer rfl s, answerWith_numberAnswer rfl s⟩

/-- Bytes that meet the invariants of R89 decode to the extracted record, under any checksum engine (R72). -/
theorem decode_eq_extractPacket_of_numbers (E : ChecksumEngine) {raw : List Byte} (hhead : raw.head? = some 0x55)
    (hwindow : Config.lenMin ≤ raw.length ∧ raw.length ≤ Config.lenMax)
    (hnumbers : (E.ck16 (raw.take (raw.length - 2))).toNat = storedTrailer raw ∧ byteAt raw 2 / 4 = 1 ∧
      byteAt raw 1 + 256 * (byteAt raw 2 % 4) = raw.length ∧ (E.ck8 (raw.take 3)).toNat = byteAt raw 3) :
    decode E raw = .ok (extractPacket ⟨raw, hwindow.1⟩) := by
  have hlater := (laterFailure_eq_none_iff_numbers E hwindow.1).mpr hnumbers
  rw [decode_frame E (magicFailure_eq_none.mpr hhead) hwindow, decodeFrame_eq_ok.mpr ⟨hlater, rfl⟩]

/-- The source's frame is accepted under every checksum engine that gives the two checksums stored in it (R122). -/
theorem decode_sourceFrame {E : ChecksumEngine} (hheader : E.ck8 [0x55, 0x0D, 0x04] = 0x33)
    (htrailer : E.ck16 [0x55, 0x0D, 0x04, 0x33, 0x2A, 0x28, 0x35, 0x12, 0x40, 0x00, 0x00] = 0xE42A) :
    decode E [0x55, 0x0D, 0x04, 0x33, 0x2A, 0x28, 0x35, 0x12, 0x40, 0x00, 0x00, 0x2A, 0xE4] =
      .ok { length := 13, version := 1, headerChecksum := 0x33, sourceKind := 1, sourceId := 10, targetKind := 1,
            targetId := 8, sequenceNumber := 4661, commandType := 64, commandSet := 0, commandId := 0, payload := [],
            trailer := 0xE42A } := by
  refine (decode_eq_extractPacket_of_numbers E rfl ?window ?numbers).trans ?packet
  case window => decide
  case numbers => exact ⟨congrArg BitVec.toNat htrailer, rfl, rfl, congrArg BitVec.toNat hheader⟩
  case packet => rfl

/-- The candidate pair's 8-bit function (R119). -/
theorem candidateEngine_ck8 : candidateEngine.ck8 = candidateCk8 := rfl

/-- The candidate pair's 16-bit function (R120). -/
theorem candidateEngine_ck16 : candidateEngine.ck16 = candidateCk16 := rfl

/-- Settles O51: the candidate gives the two checksums of the frame, and any engine that does accepts it. -/
theorem candidateAcceptsTheSourcesFrame : Obligations.CandidateAcceptsTheSourcesFrame := by
  have hheader : candidateCk8 [0x55, 0x0D, 0x04] = 0x33 := by decide +kernel
  have htrailer : candidateCk16 [0x55, 0x0D, 0x04, 0x33, 0x2A, 0x28, 0x35, 0x12, 0x40, 0x00, 0x00] = 0xE42A := by
    decide +kernel
  exact ⟨hheader, htrailer, decode_sourceFrame ((congrFun candidateEngine_ck8 _).trans hheader)
    ((congrFun candidateEngine_ck16 _).trans htrailer)⟩

end Sys2Proof.Machine
end

section
/-! Exceptions: what `END` records of an outcome (R68, R135), what a failed frame leaves in the result registers, cause by
cause (R126 to R132), and how the block serves the next frame after it (R137, R141). -/

namespace Sys2Proof.Machine

/-! ### The outcome END records -/

/-- Settles O9: in RECV the registers are the image of the outcome, the record's fields on success and the code with its
values on each of the seven failures. -/
theorem endRecordsTheOutcome : Obligations.EndRecordsTheOutcome := by
  intro E s
  refine ⟨exec_end s, closeFrame_done E, bufferedBytes_isSome, fun stored hst hbuf => ?_⟩
  rw [closeFrame_recv E hst hbuf]
  cases decodeBuffered E s.cnt.toNat stored with
  | ok p => rfl
  | fail e => cases e <;> rfl

/-! ### The causes as numbers -/

/-- The stored trailer is a number of 16 bits (R58). -/
theorem storedTrailer_lt (raw : List Byte) : storedTrailer raw < 65536 := by
  have hlow := byteAt_lt raw (raw.length - 2)
  have hhigh := byteAt_lt raw (raw.length - 1)
  unfold storedTrailer
  omega

/-- The declared length is a number of 10 bits (R52). -/
theorem declaredLength_lt (raw : List Byte) : byteAt raw 1 + 256 * (byteAt raw 2 % 4) < 1024 := by
  have hlow := byteAt_lt raw 1
  omega

/-- The version is a number of 6 bits (R52). -/
theorem version_lt (raw : List Byte) : byteAt raw 2 / 4 < 64 := by
  have hbyte := byteAt_lt raw 2
  omega

/-- A number that fits its field is the same number in a wider diagnostic register (R15). -/
theorem toNat_setWidth_ofNat {v w n : Nat} (hwider : v ≤ w) (hfits : n < 2 ^ v) :
    ((BitVec.ofNat v n).setWidth w).toNat = n := by
  rw [BitVec.toNat_setWidth_of_le hwider, BitVec.toNat_ofNat, Nat.mod_eq_of_lt hfits]

/-- Settles O38: `END` records `Decode` of the pushed bytes, which O31 gives as the chain of the same tests; each cause's
values fit its diagnostic registers. -/
theorem failedFrameRecordsItsCause : Obligations.FailedFrameRecordsItsCause := by
  intro E raw s hidle
  have hpushed := hidle.holds_pushBytes raw
  have hchain := (decodeIsTheChainOfChecks E raw).1
  simp only [ne_comm (a := storedTrailer raw)] at hchain
  refine ⟨exec_frame raw s, _, closeFrame_of_holds E hpushed, recordOutcome_st _ _, hpushed.count, ?causes⟩
  rw [recordOutcome_res, hchain]
  split_ifs with hmagic hshort hlong htrailer hversion hlength hheader
  · rfl
  · rfl
  · rfl
  · exact ⟨rfl, rfl, Nat.mod_eq_of_lt (storedTrailer_lt raw)⟩
  · exact ⟨rfl, toNat_setWidth_ofNat (by decide) (version_lt raw)⟩
  · exact ⟨rfl, toNat_setWidth_ofNat (by decide) (declaredLength_lt raw), Nat.mod_eq_of_lt (by omega)⟩
  · exact ⟨rfl, BitVec.toNat_setWidth_of_le (by decide), toNat_setWidth_ofNat (by decide) (byteAt_lt raw 3)⟩
  · rfl

/-! ### After the exception -/

/-- `ACK` in DONE leaves what `RST` leaves, but for `perr` (R65, R69). -/
theorem releaseResult_eq_resetRegisters (s : State) :
    releaseResult s = { resetRegisters s with perr := s.perr } := rfl

/-- Settles O29: the two states differ in `perr` only, which `FRAME` neither reads (O19) nor, in RECV, writes (O14). -/
theorem ackServesTheNextFrameAsResetDoes : Obligations.AckServesTheNextFrameAsResetDoes := by
  intro raw s hst
  have hreset : (resetRegisters s).Idle := ⟨rfl, rfl⟩
  have hframe := exec_frame_of_idle hreset raw
  obtain ⟨q, hackFrame⟩ := noInstructionReadsPerr _ _ _ s.perr hframe
  rw [← releaseResult_eq_resetRegisters] at hackFrame
  have hperr : q = s.perr :=
    ((perrIsStickyUntilReset _ _ _ hackFrame).2 (by simp)).trans (Bool.or_false s.perr)
  exact ⟨_, _, _, _, exec_ack_done hst, rfl, hackFrame, hframe, by rw [hperr]⟩

end Sys2Proof.Machine
end

section
/-! Reset and hazards: what `RST` leaves (R65, R145, R146), and that nothing the host does at the pins stops the block (R141,
R156). -/

namespace Sys2Proof.Machine

/-! ### What RST leaves -/

/-- What `RST` executes (R65). -/
theorem exec_rst (s : State) : exec .rst s = .next (resetRegisters s) := rfl

/-- A second `RST` changes nothing further (R145). -/
theorem resetRegisters_resetRegisters (s : State) : resetRegisters (resetRegisters s) = resetRegisters s := rfl

/-- In RECV the payload port is shut at every index (R70, R152). -/
theorem readPort_recv {s : State} (hst : s.st = .recv) (i : PayloadIndex) : readPort s i = some (0, false) :=
  readPort_shut fun hopen => nomatch hst.symm.trans hopen.1

/-- The machine starts in a state that `RST` does not change (R146). -/
theorem resetRegisters_reset : resetRegisters State.reset = State.reset := rfl

/-- The initial state waits for a frame's first byte. -/
theorem reset_idle : State.reset.Idle := ⟨reset_st, reset_cnt⟩

/-! ### Every instruction completes -/

/-- `END` in RECV records `Decode'` of the written range (R68). -/
theorem closeFrame_of_written (E : ChecksumEngine) {s : State} (hst : s.st = .recv) (hwritten : s.BufferWritten) :
    ∃ stored, bufferedBytes s = some stored ∧
      closeFrame E s = .next (recordOutcome (decodeBuffered E s.cnt.toNat stored) s) := by
  obtain ⟨stored, hbuf⟩ := bufferedBytes_isSome hwritten
  exact ⟨stored, hbuf, closeFrame_recv E hst hbuf⟩

/-- After any run of `PUSH` commands from a good state, `END` completes: in RECV the written range is still full of bytes,
and in DONE the buffer is not read. -/
theorem State.Inv.closeFrame_pushBytes_answers {s : State} (h : s.Inv) (bytes : List Byte) :
    Answers (closeFrame Config.engine (pushBytes bytes s)) := by
  have hkept := pushBytes_st bytes s
  cases hst : s.st with
  | recv =>
    obtain ⟨_, _, hclose⟩ :=
      closeFrame_of_written Config.engine (hkept.trans hst) (pushBytes_inv bytes hst h).buffer_written
    exact ⟨_, hclose⟩
  | done => exact ⟨_, closeFrame_done Config.engine (hkept.trans hst)⟩

/-- In a good state the payload port shows something at every index: outside the payload it is shut, and inside the byte is
in the buffer (R70, R152). -/
theorem State.Inv.readPort_isSome {s : State} (h : s.Inv) (i : PayloadIndex) :
    ∃ data ok, readPort s i = some (data, ok) := by
  by_cases hopen : s.st = .done ∧ s.res.status = 0 ∧ i.toNat < s.res.fPlen.toNat
  · obtain ⟨hst, hstatus, hi⟩ := hopen
    obtain ⟨_, _, b, hread⟩ := h.memRead_payload hst hstatus hi
    exact ⟨b, true, readPort_open ⟨hst, hstatus, hi⟩ hread⟩
  · exact ⟨0, false, readPort_shut hopen⟩

/-- In a good state every instruction answers a next state; only `END`, `FRAME` and `RDPL` read the buffer (R141, R156). -/
theorem State.Inv.exec_answers {s : State} (h : s.Inv) (i : Instr) : Answers (exec i s) := by
  cases i with
  | endFrame => exact h.closeFrame_pushBytes_answers []
  | frame bytes => exact h.closeFrame_pushBytes_answers bytes
  | rdpl i =>
    obtain ⟨data, ok, hport⟩ := h.readPort_isSome i
    exact ⟨_, exec_rdpl hport⟩
  | _ => exact ⟨_, rfl⟩

/-- No instruction writes the list of pending inputs. -/
theorem Effect.inputs_eq {i : Instr} {s t : State} (he : Effect s i t) : t.inputs = s.inputs := by
  cases he with
  | received b _ => exact pushByte_inputs b s
  | @recorded _ bytes _ _ _ _ => exact pushBytes_inputs bytes s
  | _ => rfl

/-- Whatever a host drives at the pins is an instruction: every command word is one (R47, R74). -/
theorem decodeInput_of_fromPins {x : Input} (hpins : fromPins x = true) : ∃ i, decodeInput x = .ok i := by
  cases x with
  | clock rst cmd =>
    cases rst with
    | true => exact ⟨.rst, rfl⟩
    | false => exact ⟨decodeCommand cmd, rfl⟩
  | readPort i => exact ⟨.rdpl i, rfl⟩
  | _ => cases hpins

/-! ### The obligations -/

/-- Settles O5: the input decodes to an instruction, which completes in the state with that input taken. -/
theorem everyPinInputIsAnswered : Obligations.EveryPinInputIsAnswered := by
  intro s x rest h hs hpins
  obtain ⟨i, hdecode⟩ := decodeInput_of_fromPins hpins
  have htaken : (s.withInputs rest).Inv := h.congr rfl rfl rfl rfl
  obtain ⟨t, hexec⟩ := htaken.exec_answers i
  exact ⟨t, (step_run hs hdecode).trans hexec, (exec_effect hexec).inputs_eq⟩

/-- Settles O1: each register's value is that of `resetRegisters`, and RECV lowers `done` and shuts the port. -/
theorem resetClearsEveryRegisterButBuf : Obligations.ResetClearsEveryRegisterButBuf := by
  intro s cmd
  have hrecv : (resetRegisters s).st = .recv := resetRegisters_st s
  have hdone : doneLine (resetRegisters s) = 0 := congrArg ControlState.bit hrecv
  have hagain : exec .rst (resetRegisters s) = .next (resetRegisters s) := by
    rw [exec_rst, resetRegisters_resetRegisters]
  exact ⟨rfl, _, exec_rst s, hrecv, resetRegisters_cnt s, resetRegisters_res s, resetRegisters_perr s, hdone,
    readPort_recv hrecv, resetRegisters_mem s, resetRegisters_answer s, resetRegisters_inputs s, hagain⟩

/-- Settles O2: the initial state is unchanged by `RST`, and meets the invariant as an idle block with an empty buffer. -/
theorem resetStateIsWhatRstLeaves : Obligations.ResetStateIsWhatRstLeaves :=
  ⟨by rw [exec_rst, resetRegisters_reset], reset_idle.inv reset_mem_wf reset_res⟩

/-- Settles O10: `END` records the outcome of the bytes it finds in the written range. -/
theorem endCompletes : Obligations.EndCompletes := by
  intro s hst hwritten
  rw [exec_end]
  exact closeFrame_of_written Config.engine hst hwritten

end Sys2Proof.Machine
end
